-- ==== Sys2Proof/Word.lean ====
section
/-! DEFINITION. The bit-level types of the block: 4-bit words, bytes, and wire bundles of an open width. -/

namespace Sys2Proof

/-- A 4-bit word: the command word `op[3:0]` (R46), and the register of an FLFSR4 (R20). -/
abbrev Nibble := BitVec 4

/-- A packed byte of `BITS2BYTES` (R89). -/
abbrev Byte := BitVec 8

/-- A bundle of wires, least significant first. Its length is its width, so that the open widths
`OPW` and `KW` of R9 need no value. -/
abbrev Bits := List Bool

end Sys2Proof
end

