-- ==== Sys2Proof/Config.lean ====
section
/-! DEFINITION. What a realisation fixes, and the one value the spec leaves free. -/

namespace Sys2Proof

/-- The open widths of the operand bus (R9, R48, R49; D5): `opw` bits for the seed and for one tap
entry, `kw` bits for the tap count. No operation rule depends on them (R50). -/
structure Widths where
  opw : Nat
  kw : Nat
deriving DecidableEq, Repr

/-- The constraints on the open widths beside a register of `size` bits (92_eei_decisions.md, "Open
parameters"): `OPW > SIZE`, `OPW ≥ 2`, `KW ≥ 1`. -/
def Widths.fits (w : Widths) (size : Nat) : Bool :=
  decide (size < w.opw) && decide (2 ≤ w.opw) && decide (1 ≤ w.kw)

namespace Config

/-- FREE VALUE (log entry 10). Whether the `k`-th line of a program, an `ISMAXLEN` on a GLFSR, restores the
state it found (R87, D12): "a model must admit both and a claim must hold for both". -/
opaque restoreChoice : Nat → Bool

end Config

end Sys2Proof
end

