-- ==== Sys2Proof/Syntax.lean ====
section
/-! DEFINITION. The abstract commands (R45), the input ports that carry them (R46 to R49, R59), the
construction record (R55), the host's events, and the programs of R57. -/

namespace Sys2Proof

/-- The abstract command set (R45), one constructor for each row of the opcode table (R47). Operands are
unbounded integers and finite lists of any length (R50). -/
inductive Instr where
  /-- `STATE`, opcode 0001 -/
  | state
  /-- `ADVANCE`, opcode 0010 -/
  | advance
  /-- `SET_TAPS(new_taps)`, opcode 0011 -/
  | setTaps (newTaps : List Int)
  /-- `RESET(some(new_seed))`, mnemonic `RESET.S`, opcode 0100 -/
  | resetS (newSeed : Int)
  /-- `RESET(none)`, mnemonic `RESET.N`, opcode 0101 -/
  | resetN
deriving DecidableEq, Repr

/-- The shape of the operand block an opcode fixes (R46). -/
inductive Format where
  | cmd0
  | cmdS
  | cmdT
deriving DecidableEq, Repr

/-- One presented command on the input ports of R59: `cmd_op`, `seed_in` (`OPW` wires), `taps_k` (`KW`
wires) and the entries of `taps_in` (`OPW` wires each). -/
structure CmdPorts where
  op : Nibble
  seedIn : Bits
  tapsK : Bits
  tapsIn : List Bits
deriving DecidableEq, Repr

/-- The parameter record `(size?, taps?, seed?)` of `G.CONSTRUCT` (R13, R55); `none` is an omitted member. -/
structure ConstructRecord where
  size : Option Int
  taps : Option (List Int)
  seed : Option Int
deriving DecidableEq, Repr

/-- What the host does to the block in one step. -/
inductive HostEvent where
  /-- the construction event `F.CONSTRUCT` (R61) -/
  | constructFixed
  /-- the construction event `G.CONSTRUCT(size?, taps?, seed?)` (R69) -/
  | constructGeneral (r : ConstructRecord)
  /-- the commands presented at once: none is `cmd_valid = 0` (R60), one is a command, more is the breach
  of R43 -/
  | present (cmds : List CmdPorts)
deriving DecidableEq, Repr

/-- The first line of a program (R57). -/
inductive ConstructLine where
  | fixed
  | general (r : ConstructRecord)
deriving DecidableEq, Repr

/-- A line of a program after the first (R57). -/
inductive Line where
  | command (i : Instr)
  | genseq (length : Int)
  | ismaxlen (maxChecks : Option Int)
deriving DecidableEq, Repr

/-- A program (R57): one construction and the lines that address the instance it makes. -/
structure Program where
  construct : ConstructLine
  lines : List Line
deriving DecidableEq, Repr

end Sys2Proof
end

