-- ==== Sys2Proof/WellFormed.lean ====
section
/-! DEFINITION. Which commands the operand bus of given widths can carry (R48, R49). -/

namespace Sys2Proof

/-- A seed that `seed_in` can carry: an unsigned number of `OPW` bits (R48). -/
def Widths.carriesSeed (w : Widths) (v : Int) : Bool :=
  decide (0 ≤ v) && decide (v < 2 ^ w.opw)

/-- A tap entry the bus can carry: a two's complement number of `OPW` bits, `OPW ≥ 2` (R49). -/
def Widths.carriesTap (w : Widths) (t : Int) : Bool :=
  decide (2 ≤ w.opw) && decide (-(2 ^ (w.opw - 1)) ≤ t) && decide (t < 2 ^ (w.opw - 1))

/-- A tap list the bus can carry: at most `2^KW - 1` entries (R9), each carried (R49). -/
def Widths.carriesTaps (w : Widths) (L : List Int) : Bool :=
  decide (L.length < 2 ^ w.kw) && L.all w.carriesTap

/-- A command that a host can present on a bus of widths `w`. Whether its operands are legal for the
register is the operation's own question (R54), not this one's. -/
def Instr.wellFormed (w : Widths) : Instr → Bool
  | .state => true
  | .advance => true
  | .setTaps L => w.carriesTaps L
  | .resetS v => w.carriesSeed v
  | .resetN => true

/-- Ports whose bundles have the widths `w` (R48, R49, R59). -/
def CmdPorts.shaped (w : Widths) (p : CmdPorts) : Bool :=
  decide (p.seedIn.length = w.opw) && decide (p.tapsK.length = w.kw)
    && p.tapsIn.all fun t => decide (t.length = w.opw)

end Sys2Proof
end

