-- ==== Sys2Proof/Decode.lean ====
section
/-! DEFINITION. The command decoder (R47 to R49, R54), total on any ports and rejecting by name, and the
encoder written from the same tables. -/

namespace Sys2Proof

/-! ### Wire bundles and numbers -/

/-- The unsigned value of a bundle: the sum of bit `i` times `2^i` (R48). -/
def bitsToNat : Bits → Nat
  | [] => 0
  | b :: bs => b.toNat + 2 * bitsToNat bs

/-- The two's complement value of a bundle (R49): its last wire weighs `-2^(n-1)`. -/
def bitsToInt (bs : Bits) : Int :=
  if bs.getLastD false then (bitsToNat bs : Int) - 2 ^ bs.length else (bitsToNat bs : Int)

/-- The low `n` bits of a number, least significant first. -/
def natToBits : Nat → Nat → Bits
  | 0, _ => []
  | n + 1, v => v.testBit 0 :: natToBits n (v / 2)

/-- The `n`-bit two's complement form of an integer (R49). -/
def intToBits (n : Nat) (t : Int) : Bits :=
  natToBits n (t % 2 ^ n).toNat

/-! ### The opcode map -/

/-- A row of the opcode map (R47). -/
structure OpRow where
  op : Nibble
  mnemonic : String
  format : Format
deriving DecidableEq, Repr

/-- The opcode map (R47). -/
def opcodeMap : List OpRow :=
  [⟨0b0001#4, "STATE", .cmd0⟩, ⟨0b0010#4, "ADVANCE", .cmd0⟩, ⟨0b0011#4, "SET_TAPS", .cmdT⟩,
    ⟨0b0100#4, "RESET.S", .cmdS⟩, ⟨0b0101#4, "RESET.N", .cmd0⟩]

/-- The opcodes that select no command (R52): `0000` and `0110` to `1111`. -/
def reservedOp (op : Nibble) : Bool :=
  decide (op.toNat = 0) || decide (6 ≤ op.toNat)

/-- Why the decoder rejects. -/
inductive DecodeError where
  /-- a reserved opcode (R52) -/
  | reservedOpcode (op : Nibble)
  /-- the entries on `taps_in` are not `K` in number (R49, R59), so they are no operand block -/
  | tapCountMismatch
deriving DecidableEq, Repr

/-- The decoder (R47, R54): the opcode alone selects the command and the shape of its operand block; ports
the command does not use are not read. -/
def decode (p : CmdPorts) : Except DecodeError Instr :=
  match p.op.toNat with
  | 1 => .ok .state
  | 2 => .ok .advance
  | 3 =>
    if bitsToNat p.tapsK = p.tapsIn.length then .ok (.setTaps (p.tapsIn.map bitsToInt))
    else .error .tapCountMismatch
  | 4 => .ok (.resetS (bitsToNat p.seedIn))
  | 5 => .ok .resetN
  | _ => .error (.reservedOpcode p.op)

/-- The ports of an operand-less command: every operand wire low. -/
def quietPorts (w : Widths) (op : Nibble) : CmdPorts :=
  { op := op, seedIn := natToBits w.opw 0, tapsK := natToBits w.kw 0, tapsIn := [] }

/-- The encoder (R46 to R49) on a bus of widths `w`. -/
def encode (w : Widths) : Instr → CmdPorts
  | .state => quietPorts w 0b0001#4
  | .advance => quietPorts w 0b0010#4
  | .setTaps L =>
    { quietPorts w 0b0011#4 with
      tapsK := natToBits w.kw L.length, tapsIn := L.map (intToBits w.opw) }
  | .resetS v => { quietPorts w 0b0100#4 with seedIn := natToBits w.opw v.toNat }
  | .resetN => quietPorts w 0b0101#4

/-! ### The host's table words -/

/-- The ports that a table word of `nbits` bits stands for: its low four bits are `cmd_op` (the rest of the
byte is padding, no wire; log entry 8) and every operand wire is low. -/
def CmdPorts.ofTableWord (nbits w : Nat) : CmdPorts :=
  { op := BitVec.ofNat 4 (w % 2 ^ nbits), seedIn := [], tapsK := [], tapsIn := [] }

/-- The command the decoder reads from a table word; `none` where it rejects. -/
def decodeTableWord (nbits w : Nat) : Option Instr :=
  (decode (CmdPorts.ofTableWord nbits w)).toOption

end Sys2Proof
end

