-- ==== Sys2Proof/Machine/State.lean ====
section
/-! DEFINITION. The state of one block and of the ports around it, the reasons a step can stop, and the
state after reset. -/

namespace Sys2Proof.Machine

/-- The reasons for a fault: none exists. "No behaviour of the block is treated as `fault` or `stuck`"
(93_implementation_defined.md section 1); the two documented errors are responses (R99). -/
inductive Fault where
deriving DecidableEq, Repr

/-- The reasons for a refusal: the spec's outcome `refuse` (R7, R102), "the spec gives no next state and no
response, and a model must give it none either". Every one is safe: the model goes on where the spec does. -/
inductive Refusal where
  /-- Raised by an arm of `exec` whose instruction has no meaning yet. Safe: nothing is claimed of it. -/
  | notModelled (mnemonic : String)
  /-- Raised by the step on an opcode that selects no command (R52, D16). Safe. -/
  | reservedOpcode (op : Nibble)
  /-- Raised by the step when the entries on `taps_in` are not `K` in number (R49, R59; log entry 7). Safe. -/
  | tapCountMismatch
  /-- Raised by the step when two or more commands are presented at once (R43, D23). Safe. -/
  | simultaneousCommands
  /-- Raised by every command when no instance exists (R30, R110, D9). Safe. -/
  | noInstance
  /-- Raised by `SET_TAPS`, `RESET.S`, `RESET.N` addressed to an FLFSR4 (R53, R64, D16). Safe. -/
  | variantLacksOperation
  /-- Raised by `RESET.S` and by `G.CONSTRUCT` on a negative seed (R69, R72, D6). Safe. -/
  | negativeSeed
  /-- Raised by `G.CONSTRUCT` and by `MAXPERIOD` on a size below 1 (R69, R82, D7, D25). Safe. -/
  | sizeBelowOne
  /-- Raised by `GENSEQ` and `ISMAXLEN` on a negative count (R83, R84, D20). Safe. -/
  | negativeCount
  /-- Raised by `BITS2BYTES` on an element that is neither 0 nor 1 (R90, D21). Safe. -/
  | notABit
  /-- Raised by a host procedure handed something that is not a generator (R101). Safe. -/
  | notAGenerator
deriving DecidableEq, Repr

/-- The two error kinds (R92). -/
inductive ErrorKind where
  | invalidSeed
  | invalidTaps
deriving DecidableEq, Repr

/-- The value of an `ok` response (R45, R51). -/
inductive Value where
  /-- the state string of `STATE`, `SIZE` characters (R33) -/
  | str (cs : List Char)
  /-- the output bit of `ADVANCE` -/
  | bit (b : Bool)
  /-- the stored tap list of `SET_TAPS` -/
  | taps (L : List Int)
  /-- `STATE` as an integer, of `RESET.S` and `RESET.N` -/
  | num (v : Nat)
  /-- the instance made by a construction event (R61, R69); that it is delivered as a response is log entry 20 -/
  | constructed
deriving DecidableEq, Repr

/-- What the host receives for one event: `ok(v)` or `error(k)` (R7); for a construction too (log entry 20). -/
inductive Response where
  | ok (v : Value)
  | error (k : ErrorKind)
deriving DecidableEq, Repr

/-- A Fixed LFSR (R20): `SIZE = 4` and `TAPS = [3, 0]` are constants, only the register changes. -/
structure Flfsr4 where
  reg : Nibble
deriving DecidableEq, Repr

/-- A General LFSR (R15 to R17): the width, the tap list exactly as given, and the register, whose range
is the invariant of R21. -/
structure Glfsr where
  size : Nat
  taps : List Int
  reg : Nat
deriving DecidableEq, Repr

/-- An instance of either variant (R1). -/
inductive Generator where
  | fixed (f : Flfsr4)
  | general (g : Glfsr)
deriving DecidableEq, Repr

/-- One block with its ports. `gen` is the instance, `none` where none exists (R30); `rsp` is the response
delivered by the last step (R51), or the outcome of its construction (log entry 20); `script` is what the
host will do, the next event first (log entry 2). -/
structure State where
  gen : Option Generator
  rsp : Option Response
  script : List HostEvent
deriving DecidableEq, Repr

/-- The block before any construction: no instance exists (R110). The start of every program (R57). -/
def State.blank : State :=
  { gen := none, rsp := none, script := [] }

/-- The block right after its reset event, construction (R107), with every operand of `G.CONSTRUCT` at its
default (R56, R69 corner case a). That reset is this construction is log entry 1. -/
def State.reset : State :=
  { gen := some (.general { size := 4, taps := [3, 0], reg := 0b0110 }), rsp := none, script := [] }

end Sys2Proof.Machine
end

