-- ==== Sys2Proof/Machine/Feedback.lean ====
section
/-! DEFINITION. The shift register's functions: output bit, feedback, next state, the state string (R33,
R66 to R68), and the derived views of the tap list (R18, R19). -/

namespace Sys2Proof.Machine

/-- Bit `t` of a state (R10). A tap list only holds legal bit indexes (R17); a negative index names no bit
and contributes nothing (log entry 9). -/
def tapBit (S : Nat) : Int → Bool
  | .ofNat k => S.testBit k
  | .negSucc _ => false

/-- `fb(S, L)`: the XOR of the bits at the positions listed, once for each listing; 0 for the empty list (R67). -/
def feedback (S : Nat) : List Int → Bool
  | [] => false
  | t :: L => xor (tapBit S t) (feedback S L)

/-- `out(S) = S[0]` (R68). -/
def outBit (S : Nat) : Bool := S.testBit 0

/-- `next(n, S, L) = (S >> 1) | (fb(S, L) * 2^(n-1))`, the feedback read before the shift (R68, R112). -/
def nextReg (n S : Nat) (L : List Int) : Nat :=
  (S >>> 1) ||| ((feedback S L).toNat * 2 ^ (n - 1))

/-- The character of a bit. -/
def digit (b : Bool) : Char := if b then '1' else '0'

/-- The state string (R33): exactly `n` characters, character `k` the digit of `S[n-1-k]`. -/
def stateString (n S : Nat) : List Char :=
  (List.range n).map fun k => digit (S.testBit (n - 1 - k))

/-- The integer a state string spells (R81: "equally as the integer it spells"). -/
def stringValue (cs : List Char) : Nat :=
  cs.foldl (fun v c => 2 * v + (if c = '1' then 1 else 0)) 0

/-! ### Derived views of the tap list -/

/-- `TAPMASK[p] = count(TAPS, p) mod 2` (R18). -/
def maskBit (L : List Int) (p : Nat) : Bool := decide (L.count (p : Int) % 2 = 1)

/-- `TAPMASK`, an `n`-bit value (R18). -/
def tapMask (n : Nat) (L : List Int) : Nat :=
  bitsToNat ((List.range n).map (maskBit L))

/-- `parity(v)`: the XOR of the low `n` bits of `v` (R18). -/
def parity (n v : Nat) : Bool :=
  (List.range n).foldr (fun p acc => xor (v.testBit p) acc) false

/-- The column vector `(s_0, ..., s_{n-1})` of a state (R19). -/
def regBits (n S : Nat) : List Bool := (List.range n).map fun i => S.testBit i

/-- The tap matrix (R19): row `n-1` is the mask, row `i` below it the unit vector with its 1 in column `i+1`. -/
def tapMatrix (n : Nat) (L : List Int) : List (List Bool) :=
  (List.range n).map fun i =>
    (List.range n).map fun j => if i + 1 = n then maskBit L j else decide (j = i + 1)

/-- The product of two vectors over GF(2). -/
def dotGF2 : List Bool → List Bool → Bool
  | a :: as, b :: bs => xor (a && b) (dotGF2 as bs)
  | _, _ => false

/-- A matrix applied to a vector over GF(2). -/
def mulGF2 (A : List (List Bool)) (v : List Bool) : List Bool := A.map fun row => dotGF2 row v

/-! ### Successive states, with the taps held -/

/-- The state after `t` advances from `S` with the taps held fixed (R76). -/
def regAt (n : Nat) (L : List Int) (S : Nat) : Nat → Nat
  | 0 => S
  | t + 1 => nextReg n (regAt n L S t) L

/-- The output stream `a(0), a(1), ...` of successive advances from `S` (R34, R76). -/
def outputAt (n : Nat) (L : List Int) (S t : Nat) : Bool := outBit (regAt n L S t)

end Sys2Proof.Machine
end

