-- ==== Sys2Proof/Machine/Ops.lean ====
section
/-! DEFINITION. The named operations every meaning is written over: reading a generator, ending a step
with a value, with a value and new state, or with an error. -/

namespace Sys2Proof.Machine

/-- What a step of the block answers. -/
abbrev Result := Host.Outcome State Fault Refusal

/-- `SIZE` (R16); the constant 4 for an FLFSR4 (R20). -/
def Generator.size : Generator → Nat
  | .fixed _ => 4
  | .general g => g.size

/-- `TAPS` (R17); the constant `[3, 0]` for an FLFSR4 (R20). -/
def Generator.taps : Generator → List Int
  | .fixed _ => [3, 0]
  | .general g => g.taps

/-- The integer `STATE` holds (R15). -/
def Generator.value : Generator → Nat
  | .fixed f => f.reg.toNat
  | .general g => g.reg

/-- `return v` of a command that writes nothing (R12): outcome `ok(v)`. -/
def answer (v : Value) (s : State) : Result :=
  .next { s with rsp := some (.ok v) }

/-- `return v` of a command that writes: outcome `ok(v)`, all writes committed at once (R12, R38). -/
def commit (x : Generator) (v : Value) (s : State) : Result :=
  .next { s with gen := some x, rsp := some (.ok v) }

/-- Taking an error, the block's only exceptional event (R99): the response is the error's kind, and every
piece of state is as before (R98). There is nothing to return from (R100): the next command runs as usual. -/
def raise (k : ErrorKind) (s : State) : Result :=
  .next { s with rsp := some (.error k) }

/-- Runs a command on the instance: a meaning for each variant, and the refusal of R30 where no instance
exists, named before any other reason of the instance or the operand (log entry 11). -/
def onGenerator (fixed : Flfsr4 → Result) (general : Glfsr → Result) (s : State) : Result :=
  match s.gen with
  | none => .refused .noInstance
  | some (.fixed f) => fixed f
  | some (.general g) => general g

/-- A step in which no command is presented (R60): the instance is as before and no response is delivered
(log entry 3). -/
def idle (s : State) : Result :=
  .next { s with rsp := none }

end Sys2Proof.Machine
end

