-- ==== Sys2Proof/Machine/Fixed.lean ====
section
/-! DEFINITION. The Fixed LFSR (40_fixed_lfsr.md), written from its own rules R61 to R64 and not as a case
of the General one: that the two agree is R80. -/

namespace Sys2Proof.Machine

/-- The instance `F.CONSTRUCT` makes: `STATE = 0b0110` (R61). -/
def Flfsr4.construct : Flfsr4 := { reg := 0b0110#4 }

/-- The string of `F.STATE`: character `k` is the digit of `STATE[3-k]` (R62). -/
def Flfsr4.string (f : Flfsr4) : List Char :=
  [digit (f.reg.getLsbD 3), digit (f.reg.getLsbD 2), digit (f.reg.getLsbD 1), digit (f.reg.getLsbD 0)]

/-- The output bit of `F.ADVANCE` (R63). -/
def Flfsr4.outBit (f : Flfsr4) : Bool := f.reg.getLsbD 0

/-- The register after `F.ADVANCE`: `(STATE >> 1) | (feedback * 8)` with the feedback `STATE[3] XOR STATE[0]`
of the pre-shift state (R63). -/
def Flfsr4.next (f : Flfsr4) : Flfsr4 :=
  { reg := (f.reg >>> 1) ||| (if xor (f.reg.getLsbD 3) (f.reg.getLsbD 0) then 0b1000#4 else 0#4) }

/-- `F.STATE` (R62). -/
def fixedState (s : State) (f : Flfsr4) : Result := answer (.str f.string) s

/-- `F.ADVANCE` (R63). -/
def fixedAdvance (s : State) (f : Flfsr4) : Result := commit (.fixed f.next) (.bit f.outBit) s

/-- A command an FLFSR4 does not have: "no mutation operations exist for it" (R53, R64). -/
def fixedLacks (_ : Flfsr4) : Result := .refused .variantLacksOperation

end Sys2Proof.Machine
end

