-- ==== Sys2Proof/Machine/Operands.lean ====
section
/-! DEFINITION. The operand forms: the validity predicates of R66 and the effective operands of R56. -/

namespace Sys2Proof.Machine

/-- The largest legal state of a register of width `n` (R66). -/
def maxValue (n : Nat) : Nat := 2 ^ n - 1

/-- `seed_fits(n, v)`: the document's test, `v ≤ max_value(n)`; it says nothing of negative `v` (R66). -/
def seedFits (n : Nat) (v : Int) : Bool := decide (v ≤ (maxValue n : Int))

/-- One tap position in `[0, n-1]` (R66). -/
def tapValid (n : Nat) (t : Int) : Bool := decide (0 ≤ t) && decide (t ≤ (n : Int) - 1)

/-- `taps_valid(n, L)`: every element in `[0, n-1]`; the empty list is valid for every `n` (R66). -/
def tapsValid (n : Nat) (L : List Int) : Bool := L.all (tapValid n)

/-- The default of `size` at `G.CONSTRUCT` (R56). -/
def defaultSize : Int := 4

/-- The default of `seed` at `G.CONSTRUCT` (R56, D22), for every size. -/
def defaultSeed : Int := 0b0110

/-- The tap list at `G.CONSTRUCT` when omitted, from the effective size (R56). -/
def defaultTaps (size : Int) : List Int := [size - 1, 0]

/-- The effective size of a construction record (R56). -/
def effectiveSize (r : ConstructRecord) : Int := r.size.getD defaultSize

/-- The effective tap list, its default taken from the effective size (R56). -/
def effectiveTaps (r : ConstructRecord) : List Int :=
  r.taps.getD (defaultTaps (effectiveSize r))

/-- The effective seed (R56). -/
def effectiveSeed (r : ConstructRecord) : Int := r.seed.getD defaultSeed

end Sys2Proof.Machine
end

