-- ==== Sys2Proof/Machine/Construct.lean ====
section
/-! DEFINITION. The construction events, the block's reset (R61, R69, R107). -/

namespace Sys2Proof.Machine

/-- What a construction yields: an instance, or an error kind, or nothing at all; "never both and never a
half-built instance" (R30). -/
inductive Construction where
  | made (x : Generator)
  | failed (k : ErrorKind)
  | refused (r : Refusal)
deriving DecidableEq, Repr

/-- `F.CONSTRUCT`: no parameters, no failure modes (R61). -/
def constructFixed : Construction := .made (.fixed Flfsr4.construct)

/-- `G.CONSTRUCT` on effective operands: size, then negative seed, then the seed's range, then the taps
(R69, R97). That a size below 1 is named before a negative seed is log entry 11. -/
def constructWith (n : Int) (L : List Int) (v : Int) : Construction :=
  if n < 1 then .refused .sizeBelowOne
  else if v < 0 then .refused .negativeSeed
  else if !seedFits n.toNat v then .failed .invalidSeed
  else if !tapsValid n.toNat L then .failed .invalidTaps
  else .made (.general { size := n.toNat, taps := L, reg := v.toNat })

/-- `G.CONSTRUCT(size?, taps?, seed?)` (R69). -/
def constructGeneral (r : ConstructRecord) : Construction :=
  constructWith (effectiveSize r) (effectiveTaps r)
    (effectiveSeed r)

/-- A construction as an event of the block: an instance that existed before has ended (R109, log entry 4);
after an error no instance exists (R30). That the outcome stands in the response field is log entry 20. -/
def powerOn (c : Construction) (s : State) : Result :=
  match c with
  | .made x => commit x .constructed s
  | .failed k => raise k { s with gen := none }
  | .refused r => .refused r

end Sys2Proof.Machine
end

