-- ==== Sys2Proof/Machine/General.lean ====
section
/-! DEFINITION. The General LFSR's five commands (41_general_lfsr.md R70 to R74). -/

namespace Sys2Proof.Machine

/-- `G.STATE` (R70). -/
def generalState (s : State) (g : Glfsr) : Result := answer (.str (stateString g.size g.reg)) s

/-- `G.ADVANCE` (R74). -/
def generalAdvance (s : State) (g : Glfsr) : Result :=
  commit (.general { g with reg := nextReg g.size g.reg g.taps }) (.bit (outBit g.reg)) s

/-- `G.SET_TAPS(new_taps)`: atomic replace-or-reject (R71). -/
def generalSetTaps (newTaps : List Int) (s : State) (g : Glfsr) : Result :=
  if tapsValid g.size newTaps then commit (.general { g with taps := newTaps }) (.taps newTaps) s
  else raise .invalidTaps s

/-- `G.RESET.S(new_seed)`: a negative seed is refused, one that does not fit is an error, any other is
loaded (R72). -/
def generalResetS (newSeed : Int) (s : State) (g : Glfsr) : Result :=
  if newSeed < 0 then .refused .negativeSeed
  else if seedFits g.size newSeed then
    commit (.general { g with reg := newSeed.toNat }) (.num newSeed.toNat) s
  else raise .invalidSeed s

/-- `G.RESET.N`: returns `STATE` as an integer and writes nothing (R73). -/
def generalResetN (s : State) (g : Glfsr) : Result := answer (.num g.reg) s

end Sys2Proof.Machine
end

