-- ==== Sys2Proof/Machine/Commands.lean ====
section
/-! DEFINITION. The meaning of each command of the opcode table, one definition each: the rule of the
variant the instance is of (R47). -/

namespace Sys2Proof.Machine

/-- `STATE`: R62 for an FLFSR4, R70 for a GLFSR. -/
def execState (s : State) : Result := onGenerator (fixedState s) (generalState s) s

/-- `ADVANCE`: R63 for an FLFSR4, R74 for a GLFSR. -/
def execAdvance (s : State) : Result := onGenerator (fixedAdvance s) (generalAdvance s) s

/-- `SET_TAPS`: R71 for a GLFSR; an FLFSR4 has none (R53). -/
def execSetTaps (newTaps : List Int) (s : State) : Result :=
  onGenerator fixedLacks (generalSetTaps newTaps s) s

/-- `RESET.S`: R72 for a GLFSR; an FLFSR4 has none (R53). -/
def execResetS (newSeed : Int) (s : State) : Result :=
  onGenerator fixedLacks (generalResetS newSeed s) s

/-- `RESET.N`: R73 for a GLFSR; an FLFSR4 has none (R53). -/
def execResetN (s : State) : Result := onGenerator fixedLacks (generalResetN s) s

end Sys2Proof.Machine
end

