-- ==== Sys2Proof/Machine/Dispatch.lean ====
section
/-! DEFINITION. One arm for each command of the opcode table (R47). -/

namespace Sys2Proof.Machine

def exec (i : Instr) (s : State) : Host.Outcome State Fault Refusal :=
  match i with
  | .state => Sys2Proof.Machine.execState s
  | .advance => Sys2Proof.Machine.execAdvance s
  | .setTaps newTaps => Sys2Proof.Machine.execSetTaps newTaps s
  | .resetS newSeed => Sys2Proof.Machine.execResetS newSeed s
  | .resetN => Sys2Proof.Machine.execResetN s

end Sys2Proof.Machine
end

