-- ==== Sys2Proof/Machine/Fetch.lean ====
section
/-! DEFINITION. Taking one event of the host: a construction, or the commands presented on the ports. -/

namespace Sys2Proof.Machine

/-- The refusal that a rejected command word gives (R52). -/
def decodeRefusal : DecodeError → Refusal
  | .reservedOpcode op => .reservedOpcode op
  | .tapCountMismatch => .tapCountMismatch

/-- One command on the ports: decode, then execute (R46, R54). A rejected encoding is named before any reason of
the instance (log entry 11). -/
def takeCommand (p : CmdPorts) (s : State) : Result :=
  match decode p with
  | .ok i => exec i s
  | .error e => .refused (decodeRefusal e)

/-- The commands presented in one step: none leaves the block as it is (R60), one is executed, more than
one is outside the model (R43). -/
def takeCommands (cmds : List CmdPorts) (s : State) : Result :=
  match cmds with
  | [] => idle s
  | [p] => takeCommand p s
  | _ :: _ :: _ => .refused .simultaneousCommands

/-- One event of the host. -/
def takeEvent (e : HostEvent) (s : State) : Result :=
  match e with
  | .constructFixed => powerOn constructFixed s
  | .constructGeneral r => powerOn (constructGeneral r) s
  | .present cmds => takeCommands cmds s

/-- The next event of the script, taken off it; with nothing in the script no command is presented (R60). -/
def takeNext (s : State) : Result :=
  match s.script with
  | [] => idle s
  | e :: rest => takeEvent e { s with script := rest }

/-- Puts one command in front of the script, so that the next step executes it. -/
def State.presentNext (s : State) (p : CmdPorts) : State :=
  { s with script := .present [p] :: s.script }

end Sys2Proof.Machine
end

