-- ==== Sys2Proof/Machine/Step.lean ====
section
/-! DEFINITION. One step of the block: the host's next event (R6, R40). -/

namespace Sys2Proof.Machine

/-- One step: the host's next event, executed whole before the next one is taken (R40). -/
def step (s : State) : Host.Outcome State Fault Refusal := takeNext s

/-- `s` with the table word's command presented next, every operand wire low. -/
def State.withFetchWord (s : State) (nbits w : Nat) : State :=
  s.presentNext (CmdPorts.ofTableWord nbits w)

end Sys2Proof.Machine
end

