-- ==== Sys2Proof/Machine/Flags.lean ====
section
/-! DEFINITION. The block has no flags (R24). Its one status field is `rsp_err` (R95), part of the response
block (R51) on the output ports (R59). -/

namespace Sys2Proof.Machine

/-- The codes of the error kinds on `rsp_err[1:0]` (R95, D8). -/
def ErrorKind.code : ErrorKind → BitVec 2
  | .invalidSeed => 0b01#2
  | .invalidTaps => 0b10#2

/-- `rsp_err[1:0]` of a response (R95); `11` is never produced. -/
def Response.status : Response → BitVec 2
  | .ok _ => 0b00#2
  | .error k => k.code

/-- The output ports (R51, R59). A field is `none` where the response gives it no meaning, and then no
claim can rest on it (log entry 18). -/
structure RspPorts where
  rspErr : BitVec 2
  rspBit : Option Bool
  rspState : Option Bits
  rspTapsK : Option Bits
  rspTaps : Option (List Bits)
deriving DecidableEq, Repr

/-- Ports that carry a status and no value. -/
def RspPorts.statusOnly (e : BitVec 2) : RspPorts :=
  { rspErr := e, rspBit := none, rspState := none, rspTapsK := none, rspTaps := none }

/-- The physical form of a response (R51) from a register of `size` bits, on a bus of widths `w`. Character
`k` of the state string is `rsp_state[SIZE-1-k]`, so the wires, least significant first, are the string's
digits from the right (D18). DESIGN CHOICE: a construction's outcome, to which R51 and R59 give no port form,
reads as its status alone, `00`, `01` or `10` with no value (log entry 20). -/
def Response.ports (size : Nat) (w : Widths) (r : Response) : RspPorts :=
  let quiet := RspPorts.statusOnly r.status
  match r with
  | .ok (.str cs) => { quiet with rspState := some (cs.reverse.map (· == '1')) }
  | .ok (.bit b) => { quiet with rspBit := some b }
  | .ok (.taps L) =>
    { quiet with rspTapsK := some (natToBits w.kw L.length), rspTaps := some (L.map (intToBits w.opw)) }
  | .ok (.num v) => { quiet with rspState := some (natToBits size v) }
  | .ok .constructed => quiet
  | .error _ => quiet

end Sys2Proof.Machine
end

