-- ==== Sys2Proof/Machine/Packing.lean ====
section
/-! DEFINITION. `BITS2BYTES` (43_bit_packing.md): a pure host function. -/

namespace Sys2Proof.Machine

/-- The number of padding bits: 0 when the length is a multiple of 8 (R89). -/
def padCount (n : Nat) : Nat := (8 - n % 8) % 8

/-- The sequence padded on the right with zeros to a multiple of 8 (R89). -/
def padded (bits : List Bool) : List Bool := bits ++ List.replicate (padCount bits.length) false

/-- Byte `j`: the sum of `padded[8*j + i] * 2^(7-i)` (R89). -/
def packByte (bits : List Bool) (j : Nat) : Byte :=
  BitVec.ofNat 8 (((List.range 8).map fun i => (bits.getD (8 * j + i) false).toNat * 2 ^ (7 - i)).sum)

/-- The packing of a sequence of bits (R89). -/
def packBits (bits : List Bool) : List Byte :=
  (List.range ((padded bits).length / 8)).map (packByte (padded bits))

/-- An element as a bit; anything but 0 and 1 is no bit (R90). -/
def asBit (v : Int) : Option Bool := if v = 0 then some false else if v = 1 then some true else none

/-- `BITS2BYTES(bits)` (R89), refusing an element that is not a bit (R90). -/
def bitsToBytes (bits : List Int) : Except Refusal (List Byte) :=
  match bits.mapM asBit with
  | none => .error .notABit
  | some bs => .ok (packBits bs)

end Sys2Proof.Machine
end

