-- ==== Sys2Proof/Machine/HostProc.lean ====
section
/-! DEFINITION. The host procedures of 42_sequence_utilities.md: host code that acts on a generator only by
issuing its commands (R4, R58, R81). -/

namespace Sys2Proof.Machine

/-- The host at work on one block: the block, and the host's record of the commands it issued with their
responses, oldest first, which is the observation of R8. -/
structure Session where
  block : State
  log : List (Instr × Response)
deriving DecidableEq, Repr

/-- A session with nothing issued yet. -/
def Session.start (s : State) : Session := { block := s, log := [] }

/-- The host issues one command and receives its response (R6). -/
def issue (i : Instr) (h : Session) : Except Refusal (Response × Session) :=
  match exec i h.block with
  | .next s' =>
    match s'.rsp with
    | some r => .ok (r, { block := s', log := h.log ++ [(i, r)] })
    | none => .error .notAGenerator
  | .fault f => nomatch f
  | .refused r => .error r

/-- `ADVANCE(g)`, as a procedure uses it: the output bit. -/
def issueAdvance (h : Session) : Except Refusal (Bool × Session) :=
  match issue .advance h with
  | .ok (.ok (.bit b), h') => .ok (b, h')
  | .ok _ => .error .notAGenerator
  | .error r => .error r

/-- `STATE(g)`, as a procedure uses it: the state string. -/
def issueState (h : Session) : Except Refusal (List Char × Session) :=
  match issue .state h with
  | .ok (.ok (.str cs), h') => .ok (cs, h')
  | .ok _ => .error .notAGenerator
  | .error r => .error r

/-- `MAXPERIOD(size)`: a pure function (R82). -/
def maxPeriod (size : Int) : Except Refusal Nat :=
  if size < 1 then .error .sizeBelowOne else .ok (2 ^ size.toNat - 1)

/-- `length` times `ADVANCE`, the outputs in order (R83). -/
def advances : Nat → Session → Except Refusal (List Bool × Session)
  | 0, h => .ok ([], h)
  | k + 1, h =>
    match issueAdvance h with
    | .error r => .error r
    | .ok (b, h1) =>
      match advances k h1 with
      | .error r => .error r
      | .ok (bs, h2) => .ok (b :: bs, h2)

/-- `GENSEQ(g, length)` (R83). A negative length is named before a missing instance (log entry 11). -/
def genSeq (length : Int) (h : Session) : Except Refusal (List Bool × Session) :=
  if length < 0 then .error .negativeCount
  else if h.block.gen = none then .error .notAGenerator
  else advances length.toNat h

/-- What the loop of `ISMAXLEN` ends with: the state strings seen, newest first, the period counter, and
the session. -/
structure Scan where
  seen : List (List Char)
  period : Nat
  session : Session
deriving DecidableEq, Repr

/-- The loop of `ISMAXLEN` (R85): at most `M` iterations, each reading the pre-advance state, leaving the loop
on one already seen, and else advancing and counting. -/
def scanLoop : Nat → Scan → Except Refusal Scan
  | 0, c => .ok c
  | M + 1, c =>
    match issueState c.session with
    | .error r => .error r
    | .ok (cs, h1) =>
      if cs ∈ c.seen then .ok { c with session := h1 }
      else
        match issueAdvance h1 with
        | .error r => .error r
        | .ok (_, h2) => scanLoop M { seen := cs :: c.seen, period := c.period + 1, session := h2 }

/-- The bound of `ISMAXLEN` (R84): as given, or twice the maximum period. -/
def scanBound (period : Nat) (maxChecks : Option Int) : Except Refusal Nat :=
  match maxChecks with
  | none => .ok (2 * period)
  | some m => if m < 0 then .error .negativeCount else .ok m.toNat

/-- The restoration of R87: `RESET.S` of the first state read, on a GLFSR and if `restore` says so; an FLFSR4
has no `RESET.S`, and with no state read there is nothing to restore (log entry 19). -/
def restoreScan (restore : Bool) (c : Scan) : Except Refusal Session :=
  match restore, c.session.block.gen, c.seen.getLast? with
  | true, some (.general _), some cs =>
    match issue (.resetS (stringValue cs)) c.session with
    | .error r => .error r
    | .ok (_, h) => .ok h
  | _, _, _ => .ok c.session

/-- `ISMAXLEN(g, max_checks?)` (R84 to R87). `restore` is the free choice of R87: a claim holds for both. DESIGN
CHOICE: a missing instance is named before a negative bound, since the default bound is made from the instance's
size; R84 and R102 refuse both and order neither (log entry 11, safe). -/
def isMaxLen (restore : Bool) (maxChecks : Option Int) (h : Session) : Except Refusal (Bool × Session) :=
  match h.block.gen with
  | none => .error .notAGenerator
  | some x =>
    match maxPeriod x.size with
    | .error r => .error r
    | .ok period =>
      match scanBound period maxChecks with
      | .error r => .error r
      | .ok M =>
        match scanLoop M { seen := [], period := 0, session := h } with
        | .error r => .error r
        | .ok c =>
          match restoreScan restore c with
          | .error r => .error r
          | .ok h' => .ok (decide (c.period = period), h')

end Sys2Proof.Machine
end

