-- ==== Sys2Proof/Machine/Program.lean ====
section
/-! DEFINITION. Programs of R57: what a line does, the run of a program, and its textual syntax. -/

namespace Sys2Proof.Machine

/-! ### Running -/

/-- What the host has after a line: a response, the bits of `GENSEQ`, or the verdict of `ISMAXLEN`. -/
inductive LineResult where
  | response (r : Response)
  | bits (bs : List Bool)
  | verdict (b : Bool)
deriving DecidableEq, Repr

/-- The construction a program's first line names. -/
def constructionOf : ConstructLine → Construction
  | .fixed => constructFixed
  | .general r => constructGeneral r

/-- The first line: the construction event on a block with no instance (R57, R110); its outcome
is a response as any other (log entry 20). -/
def runConstruct (c : ConstructLine) : Except Refusal (LineResult × Session) :=
  match powerOn (constructionOf c) State.blank with
  | .next s =>
    match s.rsp with
    | some r => .ok (.response r, Session.start s)
    | none => .error .notAGenerator
  | .fault f => nomatch f
  | .refused r => .error r

/-- One line (R57, R58). `restore` is the free choice of R87. -/
def runLine (restore : Bool) (l : Line) (h : Session) : Except Refusal (LineResult × Session) :=
  match l with
  | .command i =>
    match issue i h with
    | .ok (r, h') => .ok (.response r, h')
    | .error r => .error r
  | .genseq n =>
    match genSeq n h with
    | .ok (bs, h') => .ok (.bits bs, h')
    | .error r => .error r
  | .ismaxlen m =>
    match isMaxLen restore m h with
    | .ok (b, h') => .ok (.verdict b, h')
    | .error r => .error r

/-- The lines in order, the first of them number `k`; a refusal leaves nothing to say of what follows (R102). -/
def runLines (choice : Nat → Bool) : Nat → List Line → Session → Except Refusal (List LineResult × Session)
  | _, [], h => .ok ([], h)
  | k, l :: ls, h =>
    match runLine (choice k) l h with
    | .error r => .error r
    | .ok (x, h1) =>
      match runLines choice (k + 1) ls h1 with
      | .error r => .error r
      | .ok (xs, h2) => .ok (x :: xs, h2)

/-- A program under a given way of making the choices of R87. -/
def runProgramWith (choice : Nat → Bool) (p : Program) : Except Refusal (List LineResult × Session) :=
  match runConstruct p.construct with
  | .error r => .error r
  | .ok (x, h) =>
    match runLines choice 0 p.lines h with
    | .error r => .error r
    | .ok (xs, h') => .ok (x :: xs, h')

/-- A program's run (R123): the results of its lines and the last state, the choices of R87 free. -/
def runProgram (p : Program) : Except Refusal (List LineResult × Session) :=
  runProgramWith Config.restoreChoice p

/-! ### Textual syntax -/

/-- The pieces of a text between the separators `sep`. -/
def splitAtChar (sep : Char) : List Char → List (List Char)
  | [] => [[]]
  | c :: cs =>
    if c = sep then [] :: splitAtChar sep cs
    else
      match splitAtChar sep cs with
      | [] => [[c]]
      | w :: ws => (c :: w) :: ws

/-- What is left of a text after a given beginning, if it begins so. -/
def dropWord : List Char → List Char → Option (List Char)
  | [], cs => some cs
  | _ :: _, [] => none
  | w :: ws, c :: cs => if w = c then dropWord ws cs else none

/-- The value of a digit below `base`; letters count as digits of either case (log entry 17). -/
def digitValue (base : Nat) (c : Char) : Option Nat :=
  let v :=
    if '0' ≤ c ∧ c ≤ '9' then some (c.toNat - '0'.toNat)
    else if 'a' ≤ c ∧ c ≤ 'f' then some (c.toNat - 'a'.toNat + 10)
    else if 'A' ≤ c ∧ c ≤ 'F' then some (c.toNat - 'A'.toNat + 10)
    else none
  v.filter (· < base)

/-- The digits of a text in a base, most significant first, after a value already read. -/
def digitsFrom (base : Nat) : Nat → List Char → Option Nat
  | acc, [] => some acc
  | acc, c :: cs =>
    match digitValue base c with
    | some d => digitsFrom base (acc * base + d) cs
    | none => none

/-- A non-empty text of digits in a base. -/
def parseDigits (base : Nat) (cs : List Char) : Option Nat :=
  if cs = [] then none else digitsFrom base 0 cs

/-- `int` of R57. -/
def parseInt : List Char → Option Int
  | '-' :: cs => (parseDigits 10 cs).map fun v => -(v : Int)
  | '0' :: 'b' :: cs => (parseDigits 2 cs).map Int.ofNat
  | '0' :: 'x' :: cs => (parseDigits 16 cs).map Int.ofNat
  | cs => (parseDigits 10 cs).map Int.ofNat

/-- `list` of R57. -/
def parseList (cs : List Char) : Option (List Int) :=
  match cs with
  | '[' :: rest =>
    if rest.getLast? = some ']' then
      (if rest.dropLast = [] then some [] else (splitAtChar ',' rest.dropLast).mapM parseInt)
    else none
  | _ => none

/-- An optional named operand at the head of the words of a line: absent, or present and well written. -/
def takeOperand {α : Type} (name : List Char) (parse : List Char → Option α) (ws : List (List Char)) :
    Option (Option α × List (List Char)) :=
  match ws with
  | [] => some (none, [])
  | w :: rest =>
    match dropWord name w with
    | none => some (none, ws)
    | some operand =>
      match parse operand with
      | some v => some (some v, rest)
      | none => none

/-- The record of `construct general`: size, taps and seed, in that order, each optional (R57). -/
def parseRecord (ws : List (List Char)) : Option ConstructRecord :=
  match takeOperand "size=".toList parseInt ws with
  | none => none
  | some (size, ws1) =>
    match takeOperand "taps=".toList parseList ws1 with
    | none => none
    | some (taps, ws2) =>
      match takeOperand "seed=".toList parseInt ws2 with
      | some (seed, []) => some { size := size, taps := taps, seed := seed }
      | _ => none

/-- `construct` of R57. -/
def parseConstruct (cs : List Char) : Option ConstructLine :=
  match splitAtChar ' ' cs with
  | w1 :: w2 :: ws =>
    if w1 = "construct".toList then
      if w2 = "fixed".toList ∧ ws = [] then some .fixed
      else if w2 = "general".toList then (parseRecord ws).map .general
      else none
    else none
  | _ => none

/-- `line` of R57. -/
def parseLine (cs : List Char) : Option Line :=
  match splitAtChar ' ' cs with
  | [w] =>
    if w = "state".toList then some (.command .state)
    else if w = "advance".toList then some (.command .advance)
    else if w = "reset".toList then some (.command .resetN)
    else if w = "ismaxlen".toList then some (.ismaxlen none)
    else none
  | [w, operand] =>
    if w = "set_taps".toList then (parseList operand).map fun L => .command (.setTaps L)
    else if w = "reset".toList then (parseInt operand).map fun v => .command (.resetS v)
    else if w = "genseq".toList then (parseInt operand).map .genseq
    else if w = "ismaxlen".toList then (parseInt operand).map fun m => .ismaxlen (some m)
    else none
  | _ => none

/-- `program` of R57: one command a line. -/
def parseProgram (cs : List Char) : Option Program :=
  match splitAtChar '\n' cs with
  | [] => none
  | c :: ls =>
    match parseConstruct c, ls.mapM parseLine with
    | some k, some lines => some { construct := k, lines := lines }
    | _, _ => none

end Sys2Proof.Machine
end

