-- ==== Sys2Proof/Machine/System.lean ====
section
/-! DEFINITION. Several blocks (R27, R105): each an agent of its own with private state. -/

namespace Sys2Proof.Machine

/-- The blocks, by position; the position is the host's way to say which one, the blocks have no
identifiers (R105). -/
abbrev System := List State

/-- A command addressed to block `k`; addressed to none, it is refused (R30). -/
def System.issue (k : Nat) (i : Instr) (σ : System) : Host.Outcome System Fault Refusal :=
  match σ[k]? with
  | none => .refused .noInstance
  | some s =>
    match exec i s with
    | .next s' => .next (σ.set k s')
    | .fault f => .fault f
    | .refused r => .refused r

/-- A construction in a system: one more block, whatever the others hold (R27). A failed one holds no
instance, and every command addressed to it is refused (R30). -/
def System.construct (c : Construction) (σ : System) : Host.Outcome System Fault Refusal :=
  match powerOn c State.blank with
  | .next s => .next (σ ++ [s])
  | .fault f => .fault f
  | .refused r => .refused r

end Sys2Proof.Machine
end

