-- ==== Sys2Proof/Safety.lean ====
section
/-! DEFINITION. What counts as a legal state: the invariants of R21 and R22 and the positive width of R16. -/

namespace Sys2Proof.Machine

/-- A legal General LFSR: a positive width (R16), a state in range (R21), legal taps (R22). -/
abbrev Glfsr.Legal (g : Glfsr) : Prop :=
  1 ≤ g.size ∧ g.reg < 2 ^ g.size ∧ ∀ t ∈ g.taps, 0 ≤ t ∧ t < (g.size : Int)

/-- A legal instance. An FLFSR4 is legal by its type (R20). -/
def Generator.Legal : Generator → Prop
  | .fixed _ => True
  | .general g => g.Legal

/-- A legal block: its instance, if there is one, is legal. -/
def State.Legal (s : State) : Prop := ∀ x, s.gen = some x → x.Legal

/-- The states that a host can bring a block to, from no instance at all, by any events: the block as it is
after some number of steps under some script. -/
inductive Reachable : State → Prop where
  | start (script : List HostEvent) : Reachable { State.blank with script := script }
  | step {s s' : State} : Reachable s → step s = .next s' → Reachable s'

end Sys2Proof.Machine
end

