-- ==== Sys2Proof/Certificates/Slice0/Obligations.lean ====
section
/-! DEFINITION. The statements about the model. -/

open Sys2Proof Sys2Proof.Machine

/-! ### Construction, the reset event -/

/-- R107 with R69 corner case (a). That `State.reset` is the General construction with every operand
omitted, and that no response and no event stand on the ports then, are the model's choice (log entries 1,
2 and 3). -/
def Obligations.ResetIsDefaultGeneralConstruction : Prop :=
  constructGeneral { size := none, taps := none, seed := none } =
      .made (.general { size := 4, taps := [3, 0], reg := 6 }) ∧
    State.reset.gen = some (.general { size := 4, taps := [3, 0], reg := 6 }) ∧
    State.reset.rsp = none ∧ State.reset.script = []

/-- R28: the state of an FLFSR4 after `F.CONSTRUCT`. That it is so too where the block already holds an
instance, which the new one replaces, is the model's reading of R108 and R109 (log entry 4), not R28's; that the
outcome stands in the response field is the model's choice (log entry 20). -/
def Obligations.FixedConstructionGivesItsConstants : Prop :=
  ∀ (s : State) (rest : List HostEvent), s.script = .constructFixed :: rest →
    ∃ x, step s = .next { gen := some x, rsp := some (.ok .constructed), script := rest } ∧
      x = .fixed { reg := 6#4 } ∧ x.size = 4 ∧ x.taps = [3, 0] ∧ x.value = 6

/-- R69: every outcome of `G.CONSTRUCT`, over the effective operands `n`, `L`, `v` of R56, the seed checked
before the taps. That a construction on a block that already holds an instance replaces it, and on an error
leaves none, is the model's reading of R108 and R109 (log entry 4); the names of the two refusals, and that a
size below 1 is named before a negative seed, are the model's choice (log entry 11), and so is that the outcome
stands in the response field (log entry 20). -/
def Obligations.GeneralConstructionOutcomes : Prop :=
  ∀ (s : State) (r : ConstructRecord) (rest : List HostEvent) (n v : Int) (L : List Int),
    s.script = .constructGeneral r :: rest →
    n = r.size.getD 4 → L = r.taps.getD [n - 1, 0] → v = r.seed.getD 6 →
    (n < 1 → step s = .refused .sizeBelowOne) ∧
    (1 ≤ n → v < 0 → step s = .refused .negativeSeed) ∧
    (1 ≤ n → 2 ^ n.toNat - 1 < v →
      step s = .next { gen := none, rsp := some (.error .invalidSeed), script := rest }) ∧
    (1 ≤ n → 0 ≤ v → v ≤ 2 ^ n.toNat - 1 → (∃ t ∈ L, t < 0 ∨ n - 1 < t) →
      step s = .next { gen := none, rsp := some (.error .invalidTaps), script := rest }) ∧
    (1 ≤ n → 0 ≤ v → v ≤ 2 ^ n.toNat - 1 → (∀ t ∈ L, 0 ≤ t ∧ t ≤ n - 1) →
      step s = .next { gen := some (.general { size := n.toNat, taps := L, reg := v.toNat }),
                       rsp := some (.ok .constructed), script := rest })

/-- R29: a successful `G.CONSTRUCT` gives the three pieces of state their effective operands, and the state
string read next has `size` characters and spells the seed. That it is so too where the block already holds
an instance is the model's reading of R108 and R109 (log entry 4). -/
def Obligations.GeneralConstructionThenStateSpellsSeed : Prop :=
  ∀ (s : State) (r : ConstructRecord) (rest : List HostEvent) (n v : Int) (L : List Int),
    s.script = .constructGeneral r :: rest →
    n = r.size.getD 4 → L = r.taps.getD [n - 1, 0] → v = r.seed.getD 6 →
    1 ≤ n → 0 ≤ v → v ≤ 2 ^ n.toNat - 1 → (∀ t ∈ L, 0 ≤ t ∧ t ≤ n - 1) →
    ∃ s' x cs, step s = .next s' ∧ s'.gen = some x ∧
      (x.size : Int) = n ∧ x.taps = L ∧ (x.value : Int) = v ∧
      exec .state s' = .next { s' with rsp := some (.ok (.str cs)) } ∧
      (cs.length : Int) = n ∧ (stringValue cs : Int) = v ∧ ∀ c ∈ cs, c = '0' ∨ c = '1'

/-- R30: a construction that ends in an error leaves no instance, and every command then is refused. That it
leaves none too where the block held an earlier instance is the model's reading of R108 and R109 (log
entry 4); that the error stands in the response field, and that the refusal of a
command then names the missing instance whatever its operand, are the model's choices (log entries 20 and 11). -/
def Obligations.FailedConstructionLeavesNoInstance : Prop :=
  ∀ (s s' : State) (r : ConstructRecord) (rest : List HostEvent) (k : ErrorKind),
    s.script = .constructGeneral r :: rest → step s = .next s' → s'.rsp = some (.error k) →
    s'.gen = none ∧ ∀ i, exec i s' = .refused .noInstance

/-! ### The Fixed LFSR -/

/-- R62: `F.STATE` returns the four digits, most significant first, and writes nothing else. -/
def Obligations.FixedStateReadsRegister : Prop :=
  ∀ (s : State) (f : Flfsr4), s.gen = some (.fixed f) →
    ∃ cs, exec .state s = .next { s with rsp := some (.ok (.str cs)) } ∧ cs.length = 4 ∧
      ∀ k < 4, cs[k]? = some (if f.reg.getLsbD (3 - k) then '1' else '0')

/-- R63: `F.ADVANCE` returns bit 0, moves every bit one place down and inserts `STATE[3] XOR STATE[0]`. -/
def Obligations.FixedAdvanceShiftsAndFeedsBack : Prop :=
  ∀ (s : State) (f : Flfsr4), s.gen = some (.fixed f) →
    ∃ r : Nibble, exec .advance s =
        .next { s with gen := some (.fixed { reg := r }), rsp := some (.ok (.bit (f.reg.getLsbD 0))) } ∧
      r.getLsbD 0 = f.reg.getLsbD 1 ∧ r.getLsbD 1 = f.reg.getLsbD 2 ∧ r.getLsbD 2 = f.reg.getLsbD 3 ∧
      r.getLsbD 3 = xor (f.reg.getLsbD 3) (f.reg.getLsbD 0)

/-- R53: an FLFSR4 has no `SET_TAPS`, no `RESET.S` and no `RESET.N`; each is refused. -/
def Obligations.FixedRefusesMutation : Prop :=
  ∀ (s : State) (f : Flfsr4) (L : List Int) (v : Int), s.gen = some (.fixed f) →
    exec (.setTaps L) s = .refused .variantLacksOperation ∧
      exec (.resetS v) s = .refused .variantLacksOperation ∧
      exec .resetN s = .refused .variantLacksOperation

/-- R65, its table: the outputs of, and the state after, each of the first sixteen advances. -/
def Obligations.FixedRunFromConstruction : Prop :=
  ∀ (s : State) (k : Nat), s.gen = some (.fixed { reg := 0b0110#4 }) → k ≤ 16 →
    ∃ h, genSeq k (Session.start s) =
        .ok ([false, true, true, false, false, true, false, false, false, true, true, true, true, false,
              true, false].take k, h) ∧
      h.block.gen = some (.fixed ⟨[0b0110#4, 0b0011#4, 0b1001#4, 0b0100#4, 0b0010#4, 0b0001#4, 0b1000#4,
        0b1100#4, 0b1110#4, 0b1111#4, 0b0111#4, 0b1011#4, 0b0101#4, 0b1010#4, 0b1101#4, 0b0110#4,
        0b0011#4].getD k 0#4⟩)

/-- R65: from any non-zero state an FLFSR4 is back where it was after exactly the multiples of 15. -/
def Obligations.FixedReturnsAtMultiplesOfFifteen : Prop :=
  ∀ (s : State) (f : Flfsr4) (k : Nat), s.gen = some (.fixed f) → f.reg ≠ 0#4 →
    ∃ bs h, genSeq k (Session.start s) = .ok (bs, h) ∧ (h.block.gen = s.gen ↔ 15 ∣ k)

/-! ### The General LFSR -/

/-- R70, with the bit order of R33: `G.STATE` returns exactly `SIZE` characters, character `k` the digit of
`STATE[SIZE-1-k]`, and writes nothing else. -/
def Obligations.GeneralStateReadsRegister : Prop :=
  ∀ (s : State) (g : Glfsr), s.gen = some (.general g) →
    ∃ cs, exec .state s = .next { s with rsp := some (.ok (.str cs)) } ∧ cs.length = g.size ∧
      ∀ k < g.size, cs[k]? = some (if g.reg.testBit (g.size - 1 - k) then '1' else '0')

/-- R74: `G.ADVANCE` returns bit 0, moves every bit one place down, and inserts at bit `SIZE-1` the parity
of the number of listed positions whose bit is 1; the rest of the state is as before. The new register is
given bit by bit and by its range. -/
def Obligations.GeneralAdvanceShiftsAndFeedsBack : Prop :=
  ∀ (s : State) (g : Glfsr), s.gen = some (.general g) → g.Legal →
    ∃ r : Nat, exec .advance s =
        .next { s with gen := some (.general { g with reg := r }),
                       rsp := some (.ok (.bit (g.reg.testBit 0))) } ∧
      (∀ i, i + 1 < g.size → r.testBit i = g.reg.testBit (i + 1)) ∧
      r.testBit (g.size - 1) = decide ((g.taps.filter fun t => g.reg.testBit t.toNat).length % 2 = 1) ∧
      r < 2 ^ g.size

/-- R71: `G.SET_TAPS` replaces the list and returns it as given, or, when an element is below 0 or above
`SIZE-1`, is `InvalidTaps` and leaves everything as it was. -/
def Obligations.GeneralSetTapsReplacesOrRejects : Prop :=
  ∀ (s : State) (g : Glfsr) (L : List Int), s.gen = some (.general g) →
    ((∀ t ∈ L, 0 ≤ t ∧ t ≤ (g.size : Int) - 1) →
      exec (.setTaps L) s =
        .next { s with gen := some (.general { g with taps := L }), rsp := some (.ok (.taps L)) }) ∧
    ((∃ t ∈ L, t < 0 ∨ (g.size : Int) - 1 < t) →
      exec (.setTaps L) s = .next { s with rsp := some (.error .invalidTaps) })

/-- R72: `G.RESET.S` loads a seed that fits and returns it, is `InvalidSeed` on one above `2^SIZE - 1` and
leaves everything as it was, and is refused on a negative one. -/
def Obligations.GeneralResetLoadsSeedOrRejects : Prop :=
  ∀ (s : State) (g : Glfsr) (v : Int), s.gen = some (.general g) →
    (0 ≤ v → v ≤ 2 ^ g.size - 1 →
      exec (.resetS v) s =
        .next { s with gen := some (.general { g with reg := v.toNat }),
                       rsp := some (.ok (.num v.toNat)) }) ∧
    (2 ^ g.size - 1 < v → exec (.resetS v) s = .next { s with rsp := some (.error .invalidSeed) }) ∧
    (v < 0 → exec (.resetS v) s = .refused .negativeSeed)

/-- R73: `G.RESET.N` returns `STATE` as an integer and writes nothing. -/
def Obligations.GeneralResetWithoutSeedWritesNothing : Prop :=
  ∀ (s : State) (g : Glfsr), s.gen = some (.general g) →
    exec .resetN s = .next { s with rsp := some (.ok (.num g.reg)) }

/-! ### Rules of the whole command set -/

/-- R25, the table of who writes what: a command that goes on changes neither the variant nor `SIZE`, changes
`TAPS` only if it is `SET_TAPS`, and then to its operand with `STATE` untouched, and changes `STATE` only if
it is `ADVANCE` or `RESET.S`, the latter to its operand, with `TAPS` untouched. -/
def Obligations.CommandsWriteOnlyTheirOwnState : Prop :=
  ∀ (i : Instr) (s s' : State) (x : Generator), s.gen = some x → exec i s = .next s' →
    ∃ x', s'.gen = some x' ∧ s'.script = s.script ∧ x'.size = x.size ∧
      ((∃ f, x = .fixed f) ↔ ∃ f, x' = .fixed f) ∧
      (x'.taps ≠ x.taps → ∃ L, i = .setTaps L ∧ x'.taps = L ∧ x'.value = x.value) ∧
      (x'.value ≠ x.value → x'.taps = x.taps ∧ (i = .advance ∨ ∃ v, i = .resetS v ∧ (x'.value : Int) = v))

/-- R39: the reads can be repeated: `STATE` on any instance and `RESET.N` on a GLFSR leave the instance as it
was, and issued again give the same. -/
def Obligations.ReadsAreRepeatable : Prop :=
  ∀ (s : State) (x : Generator), s.gen = some x →
    (∃ s', exec .state s = .next s' ∧ s'.gen = s.gen ∧ exec .state s' = .next s') ∧
    ((∃ g, x = .general g) → ∃ s', exec .resetN s = .next s' ∧ s'.gen = s.gen ∧ exec .resetN s' = .next s')

/-- R92 to R96: exactly when a command answers with an error, and with which. -/
def Obligations.ErrorsRaisedExactlyWhen : Prop :=
  ∀ (i : Instr) (s : State) (k : ErrorKind),
    (∃ s', exec i s = .next s' ∧ s'.rsp = some (.error k)) ↔
      ∃ g, s.gen = some (.general g) ∧
        ((k = .invalidTaps ∧ ∃ L, i = .setTaps L ∧ ∃ t ∈ L, t < 0 ∨ (g.size : Int) - 1 < t) ∨
         (k = .invalidSeed ∧ ∃ v, i = .resetS v ∧ 2 ^ g.size - 1 < v))

/-- R98, R100: a command that answers with an error leaves every piece of state as it was; every later command
then does what it would have done without the error; and the same command gives the same error again. -/
def Obligations.ErrorsLeaveNothingBehind : Prop :=
  ∀ (i : Instr) (s s' : State) (k : ErrorKind), exec i s = .next s' → s'.rsp = some (.error k) →
    s'.gen = s.gen ∧ s'.script = s.script ∧ (∀ j, exec j s' = exec j s) ∧ exec i s' = .next s'

/-- R102, the commands: a command is refused exactly when no instance exists, or the FLFSR4 has no such
operation, or a GLFSR is handed a negative seed. -/
def Obligations.CommandsRefusedExactlyWhen : Prop :=
  ∀ (i : Instr) (s : State),
    (∃ r, exec i s = .refused r) ↔
      s.gen = none ∨
      ((∃ f, s.gen = some (.fixed f)) ∧ i ≠ .state ∧ i ≠ .advance) ∨
      ((∃ g, s.gen = some (.general g)) ∧ ∃ v, i = .resetS v ∧ v < 0)

/-- R7, R51: every command of the variant that is not refused completes, with exactly one response. -/
def Obligations.CommandsCompleteWithOneResponse : Prop :=
  ∀ (i : Instr) (s : State) (x : Generator), s.gen = some x →
    ((∃ f, x = .fixed f) → i = .state ∨ i = .advance) → (∀ v, i = .resetS v → 0 ≤ v) →
    ∃ s' r, exec i s = .next s' ∧ s'.rsp = some r

/-! ### The shift register -/

/-- R75: the next state of a state in range is in range, for every tap list. -/
def Obligations.NextStateStaysInRange : Prop :=
  ∀ (n S : Nat) (L : List Int), 1 ≤ n → S < 2 ^ n → nextReg n S L < 2 ^ n

/-- R77: zero is a fixed point of every tap list; an instance at 0 outputs 0 for ever and stays there, and the
only command that takes it away from 0 is `RESET.S`. -/
def Obligations.ZeroStateIsAFixedPoint : Prop :=
  (∀ (n : Nat) (L : List Int), nextReg n 0 L = 0 ∧ outBit 0 = false) ∧
  (∀ (s : State) (x : Generator) (k : Nat), s.gen = some x → x.value = 0 →
    ∃ h, genSeq k (Session.start s) = .ok (List.replicate k false, h) ∧ h.block.gen = s.gen) ∧
  (∀ (i : Instr) (s s' : State) (x x' : Generator), s.gen = some x → x.value = 0 →
    exec i s = .next s' → s'.gen = some x' → x'.value ≠ 0 → ∃ v, i = .resetS v)

/-- R18: bit `p` of the mask says whether `p` is listed an odd number of times, and the feedback is the parity
of the masked state. -/
def Obligations.FeedbackIsParityOfMaskedState : Prop :=
  ∀ (n S : Nat) (L : List Int), S < 2 ^ n → (∀ t ∈ L, 0 ≤ t ∧ t < (n : Int)) →
    (∀ p < n, (tapMask n L).testBit p = decide (L.count (p : Int) % 2 = 1)) ∧
    tapMask n L < 2 ^ n ∧
    feedback S L = parity n (S &&& tapMask n L)

/-- R79: two legal tap lists with the same mask have the same next state everywhere. -/
def Obligations.OnlyTheMaskMatters : Prop :=
  ∀ (n S : Nat) (L M : List Int), S < 2 ^ n → (∀ t ∈ L, 0 ≤ t ∧ t < (n : Int)) →
    (∀ t ∈ M, 0 ≤ t ∧ t < (n : Int)) → tapMask n L = tapMask n M → nextReg n S L = nextReg n S M

/-- R19: one advance is the tap matrix applied to the state as a vector over GF(2), and outputs its first
component; the matrices of the rule for `N = 1` and for the FLFSR4. -/
def Obligations.AdvanceIsTheTapMatrix : Prop :=
  (∀ (n S : Nat) (L : List Int), 1 ≤ n → S < 2 ^ n → (∀ t ∈ L, 0 ≤ t ∧ t < (n : Int)) →
    mulGF2 (tapMatrix n L) (regBits n S) = regBits n (nextReg n S L) ∧
      (regBits n S).head? = some (outBit S)) ∧
  (∀ L : List Int, tapMatrix 1 L = [[maskBit L 0]]) ∧
  tapMatrix 4 [3, 0] =
    [[false, true, false, false], [false, false, true, false], [false, false, false, true],
     [true, false, false, true]]

/-- R78: the step is a bijection on the states in range exactly when position 0 is listed an odd number of
times. -/
def Obligations.StepIsBijectionIffTapZeroIsOdd : Prop :=
  ∀ (n : Nat) (L : List Int), 1 ≤ n → (∀ t ∈ L, 0 ≤ t ∧ t < (n : Int)) →
    (((∀ S T, S < 2 ^ n → T < 2 ^ n → nextReg n S L = nextReg n T L → S = T) ∧
      (∀ T, T < 2 ^ n → ∃ S, S < 2 ^ n ∧ nextReg n S L = T)) ↔ L.count 0 % 2 = 1)

/-- R76: the output stream from `S` begins with the bits of `S`, obeys the recurrence of the mask, and the
register at every time holds the next `n` outputs. -/
def Obligations.OutputStreamObeysTheRecurrence : Prop :=
  ∀ (n S : Nat) (L : List Int), 1 ≤ n → S < 2 ^ n → (∀ t ∈ L, 0 ≤ t ∧ t < (n : Int)) →
    (∀ j < n, outputAt n L S j = S.testBit j) ∧
    (∀ t, outputAt n L S (t + n) =
      (List.range n).foldr (fun p acc => xor (maskBit L p && outputAt n L S (t + p)) acc) false) ∧
    (∀ t i, i < n → (regAt n L S t).testBit i = outputAt n L S (t + i))

/-- R117: with the mask 0 the register is 0 after at most `SIZE` advances, having output its contents once. -/
def Obligations.EmptyMaskDrainsTheRegister : Prop :=
  ∀ (n S : Nat) (L : List Int), 1 ≤ n → S < 2 ^ n → (∀ t ∈ L, 0 ≤ t ∧ t < (n : Int)) → tapMask n L = 0 →
    (∀ t, n ≤ t → regAt n L S t = 0) ∧ (∀ t, outputAt n L S t = (decide (t < n) && S.testBit t))

/-- R80: from the same state a GLFSR with `SIZE = 4` and `TAPS = [3, 0]` and an FLFSR4 give, for every stream
of `STATE` and `ADVANCE` commands, the same responses, and stand in the same state at its end. -/
def Obligations.GeneralPresetAgreesWithFixed : Prop :=
  ∀ (s t : State) (r : Nibble) (is : List Instr) (choice : Nat → Bool),
    s.gen = some (.fixed { reg := r }) →
    t.gen = some (.general { size := 4, taps := [3, 0], reg := r.toNat }) →
    (∀ i ∈ is, i = .state ∨ i = .advance) →
    ∃ xs hs ht r', runLines choice 0 (is.map .command) (Session.start s) = .ok (xs, hs) ∧
      runLines choice 0 (is.map .command) (Session.start t) = .ok (xs, ht) ∧
      xs.length = is.length ∧ hs.log = ht.log ∧
      hs.block.gen = some (.fixed { reg := r' }) ∧
      ht.block.gen = some (.general { size := 4, taps := [3, 0], reg := r'.toNat })

/-! ### The ports, the decoder and the step -/

/-- R46, R54: a single presented command that decodes is executed, on the state with its event taken off the
script and nothing else changed. That presented commands stand in a script is the model's (log entry 2). -/
def Obligations.StepRunsTheDecodedCommand : Prop :=
  ∀ (s : State) (p : CmdPorts) (i : Instr) (rest : List HostEvent),
    s.script = .present [p] :: rest → decode p = .ok i → step s = exec i { s with script := rest }

/-- R60: where no command is presented the instance does not change. That no response stands on the ports
after such a step is the model's choice (log entry 3). -/
def Obligations.NoCommandLeavesTheInstance : Prop :=
  ∀ (s : State) (rest : List HostEvent),
    (s.script = [] → step s = .next { s with rsp := none }) ∧
    (s.script = .present [] :: rest → step s = .next { s with rsp := none, script := rest })

/-- R43: two or more commands presented at once are refused. That equal commands are refused too is the model's
reading of R43 (log entry 13); that the refusal names the simultaneous commands also where no instance exists or
an opcode is reserved is the model's choice (log entry 11). -/
def Obligations.SimultaneousCommandsAreRefused : Prop :=
  ∀ (s : State) (p q : CmdPorts) (ps : List CmdPorts) (rest : List HostEvent),
    s.script = .present (p :: q :: ps) :: rest → step s = .refused .simultaneousCommands

/-- R52: presenting `0000` or one of `0110` to `1111` is refused, whatever the state and the operands, and no
other opcode is rejected as reserved. That the refusal names the opcode also where no instance exists is the
model's choice (log entry 11). -/
def Obligations.ReservedOpcodesAreRefused : Prop :=
  ∀ (s : State) (p : CmdPorts) (rest : List HostEvent), s.script = .present [p] :: rest →
    ((p.op.toNat = 0 ∨ 6 ≤ p.op.toNat) → step s = .refused (.reservedOpcode p.op)) ∧
    ((1 ≤ p.op.toNat ∧ p.op.toNat ≤ 5) → ∀ op, decode p ≠ .error (.reservedOpcode op))

/-- R47, R48, R49: what the five opcodes decode to: the seed is the sum of `seed_in[i] * 2^i`, a tap entry of
`n + 1` wires weighs its last wire `-2^n`, in list order. Ports whose entries are not `K` in number carry no
operand block; that they are rejected is the model's choice (log entry 7). -/
def Obligations.OpcodesDecodeWithTheirOperands : Prop :=
  ∀ (p : CmdPorts),
    (p.op = 0b0001#4 → decode p = .ok .state) ∧
    (p.op = 0b0010#4 → decode p = .ok .advance) ∧
    (p.op = 0b0101#4 → decode p = .ok .resetN) ∧
    (p.op = 0b0100#4 → decode p = .ok (.resetS
      (((List.range p.seedIn.length).map fun i => (p.seedIn.getD i false).toNat * 2 ^ i).sum : Nat))) ∧
    (p.op = 0b0011#4 →
      ((List.range p.tapsK.length).map fun i => (p.tapsK.getD i false).toNat * 2 ^ i).sum = p.tapsIn.length →
      (∀ b ∈ p.tapsIn, b ≠ []) →
      decode p = .ok (.setTaps (p.tapsIn.map fun b =>
        ((((List.range (b.length - 1)).map fun i => (b.getD i false).toNat * 2 ^ i).sum : Nat) : Int)
          - ((b.getD (b.length - 1) false).toNat * 2 ^ (b.length - 1) : Nat)))) ∧
    (p.op = 0b0011#4 →
      ((List.range p.tapsK.length).map fun i => (p.tapsK.getD i false).toNat * 2 ^ i).sum ≠ p.tapsIn.length →
      decode p = .error .tapCountMismatch)

/-- Decoding gives back every command that the bus carries, with every operand, on ports of the bus's widths
(R46 to R49). -/
def Obligations.DecodeOfEncodeIsTheCommand : Prop :=
  ∀ (w : Widths) (i : Instr), i.wellFormed w = true →
    decode (encode w i) = .ok i ∧ (encode w i).shaped w = true

/-- What ports of given widths decode to is a command the bus carries, and its encoding is the same opcode and
the same operand block (R46 to R49). -/
def Obligations.EncodeOfDecodeIsTheOperandBlock : Prop :=
  ∀ (w : Widths) (p : CmdPorts) (i : Instr), 2 ≤ w.opw → p.shaped w = true → decode p = .ok i →
    i.wellFormed w = true ∧ (encode w i).op = p.op ∧
      ((∃ v, i = .resetS v) → (encode w i).seedIn = p.seedIn) ∧
      ((∃ L, i = .setTaps L) → (encode w i).tapsK = p.tapsK ∧ (encode w i).tapsIn = p.tapsIn)

/-- R47: the five command words, and the eleven reserved ones (R52), as table words. That a table word's upper
half is padding and its operand wires are low, so that `0011` carries the empty list and `0100` the seed 0, is
the model's choice (log entry 8). -/
def Obligations.TableWordsDecode : Prop :=
  decodeTableWord 8 0b0001 = some .state ∧ decodeTableWord 8 0b0010 = some .advance ∧
    decodeTableWord 8 0b0011 = some (.setTaps []) ∧ decodeTableWord 8 0b0100 = some (.resetS 0) ∧
    decodeTableWord 8 0b0101 = some .resetN ∧
    (∀ w ∈ [0b0000, 0b0110, 0b0111, 0b1000, 0b1001, 0b1010, 0b1011, 0b1100, 0b1101, 0b1110, 0b1111],
      decodeTableWord 8 w = none)

/-- R42: a successful `SET_TAPS` is seen by the very next `ADVANCE`, a rejected one by none: over two steps,
the bit inserted is the feedback under the new list if it is legal, and under the old one if not. -/
def Obligations.NewTapsAreSeenByTheNextAdvance : Prop :=
  ∀ (s : State) (g : Glfsr) (p q : CmdPorts) (L : List Int) (rest : List HostEvent),
    s.gen = some (.general g) → s.script = .present [p] :: .present [q] :: rest →
    decode p = .ok (.setTaps L) → decode q = .ok .advance →
    ∃ s1, step s = .next s1 ∧
      ((∀ t ∈ L, 0 ≤ t ∧ t < (g.size : Int)) → step s1 = .next
        { gen := some (.general { g with taps := L, reg := nextReg g.size g.reg L }),
          rsp := some (.ok (.bit (outBit g.reg))), script := rest }) ∧
      (¬ (∀ t ∈ L, 0 ≤ t ∧ t < (g.size : Int)) → step s1 = .next
        { gen := some (.general { g with reg := nextReg g.size g.reg g.taps }),
          rsp := some (.ok (.bit (outBit g.reg))), script := rest })

/-- R95: the codes of a response's status. -/
def Obligations.ResponseStatusCodes : Prop :=
  ∀ (r : Response), (∀ v, r = .ok v → r.status = 0b00#2) ∧
    (r = .error .invalidSeed → r.status = 0b01#2) ∧ (r = .error .invalidTaps → r.status = 0b10#2) ∧
    r.status ≠ 0b11#2

/-- R51, R59, R95: what stands on the output ports after each command of a legal instance, of either variant.
`rsp_err` carries the status always. On `ok`, `rsp_bit` is the output bit after `ADVANCE`, the tap list is echoed
after `SET_TAPS` in the form of R49, and `rsp_state` is the register, bit by bit, after `STATE`, `RESET.S` and
`RESET.N`. That every port with no meaning is absent, on `ok` and after an error, is the model's choice (log
entry 18). -/
def Obligations.ResponsePortsCarryTheValue : Prop :=
  ∀ (w : Widths) (i : Instr) (s s' : State) (x x' : Generator) (r : Response),
    s.gen = some x → x.Legal → exec i s = .next s' → s'.rsp = some r → s'.gen = some x' →
    (r.ports x.size w).rspErr = r.status ∧
    (r.status = 0#2 →
      (i = .advance →
        r.ports x.size w = { RspPorts.statusOnly 0#2 with rspBit := some (x.value.testBit 0) }) ∧
      (∀ L, i = .setTaps L →
        r.ports x.size w = { RspPorts.statusOnly 0#2 with
          rspTapsK := some (encode w (.setTaps L)).tapsK, rspTaps := some (encode w (.setTaps L)).tapsIn }) ∧
      ((i = .state ∨ i = .resetN ∨ ∃ v, i = .resetS v) →
        ∃ bs, r.ports x.size w = { RspPorts.statusOnly 0#2 with rspState := some bs } ∧ bs.length = x.size ∧
          ∀ k < x.size, bs[k]? = some (x'.value.testBit k))) ∧
    (r.status ≠ 0#2 → r.ports x.size w = RspPorts.statusOnly r.status)

/-- R114: the first `SIZE` outputs after a successful `SET_TAPS` are the bits already in the register, whatever
the new list is; the next one is the parity of the number of newly listed positions whose bit is 1. -/
def Obligations.NewTapsShowAfterSizeOutputs : Prop :=
  ∀ (s : State) (g : Glfsr) (L : List Int), s.gen = some (.general g) → g.Legal →
    (∀ t ∈ L, 0 ≤ t ∧ t < (g.size : Int)) →
    ∃ s' bs h, exec (.setTaps L) s = .next s' ∧ genSeq (g.size + 1 : Nat) (Session.start s') = .ok (bs, h) ∧
      bs.length = g.size + 1 ∧ (∀ j < g.size, bs[j]? = some (g.reg.testBit j)) ∧
      bs[g.size]? = some (decide ((L.filter fun t => g.reg.testBit t.toNat).length % 2 = 1))

/-! ### Invariants -/

/-- The states before and after reset are legal. That `State.reset` is the default General construction is
the model's choice (log entry 1). -/
def Obligations.ResetIsLegal : Prop := State.reset.Legal ∧ State.blank.Legal

/-- R21, R22, R16: every step from a legal block leaves a legal block. -/
def Obligations.StepKeepsLegal : Prop :=
  ∀ (s s' : State), s.Legal → step s = .next s' → s'.Legal

/-- R21, R22: in every state a block can reach, under any script, `STATE` is in range and every tap is a bit
index. -/
def Obligations.ReachableStatesAreInRange : Prop :=
  ∀ (s : State) (x : Generator), Reachable s → s.gen = some x →
    1 ≤ x.size ∧ x.value ≤ 2 ^ x.size - 1 ∧ ∀ t ∈ x.taps, 0 ≤ t ∧ t ≤ (x.size : Int) - 1

/-- R115: an FLFSR4 cannot reach 0, under any script. -/
def Obligations.FixedNeverReachesZero : Prop :=
  ∀ (s : State) (f : Flfsr4), Reachable s → s.gen = some (.fixed f) → f.reg ≠ 0#4

/-! ### The host procedures -/

/-- R82: `MAXPERIOD`. -/
def Obligations.MaxPeriodIsTwoToTheSizeLessOne : Prop :=
  ∀ (size : Int), (1 ≤ size → maxPeriod size = .ok (2 ^ size.toNat - 1)) ∧
    (size < 1 → maxPeriod size = .error .sizeBelowOne)

/-- R83: `GENSEQ` issues exactly `length` times `ADVANCE` and returns the outputs in order, starting with bit 0
of the state; it leaves `SIZE` and `TAPS` alone and `STATE` that many advances on; taking `a` bits and then `b` is taking `a + b`; a negative
length is refused. -/
def Obligations.GenSeqCollectsTheOutputs : Prop :=
  ∀ (h : Session) (x : Generator), h.block.gen = some x →
    (∀ length : Nat, ∃ bs h' x', genSeq length h = .ok (bs, h') ∧ bs.length = length ∧
      h'.log = h.log ++ bs.map (fun b => (.advance, .ok (.bit b))) ∧
      (0 < length → bs[0]? = some (x.value.testBit 0)) ∧
      h'.block.gen = some x' ∧ x'.size = x.size ∧ x'.taps = x.taps ∧
      x'.value = regAt x.size x.taps x.value length) ∧
    (∀ (a b : Nat) as bs h1 h2, genSeq a h = .ok (as, h1) → genSeq b h1 = .ok (bs, h2) →
      genSeq (a + b : Nat) h = .ok (as ++ bs, h2)) ∧
    (∀ length : Int, length < 0 → genSeq length h = .error .negativeCount)

/-- R34: the first `SIZE` outputs are the bits of the register, bit 0 first, whatever the taps are, and the
feedback bit of an advance is the output `SIZE` advances later. -/
def Obligations.OutputsLeaveLeastSignificantFirst : Prop :=
  ∀ (s : State) (x : Generator) (length : Nat), s.gen = some x → x.Legal →
    ∃ bs h, genSeq length (Session.start s) = .ok (bs, h) ∧
      (∀ j, j < length → bs[j]? = some (outBit (regAt x.size x.taps x.value j))) ∧
      (∀ j, j < length → j < x.size → bs[j]? = some (x.value.testBit j)) ∧
      (∀ j, j + x.size < length →
        bs[j + x.size]? = some (feedback (regAt x.size x.taps x.value j) x.taps))

/-- R84: the bound of `ISMAXLEN`: omitted, it is `2 * (2^SIZE - 1)`; a negative one is refused. -/
def Obligations.IsMaxLenDefaultBound : Prop :=
  ∀ (restore : Bool) (h : Session) (x : Generator), h.block.gen = some x → 1 ≤ x.size →
    isMaxLen restore none h = isMaxLen restore (some (2 * (2 ^ x.size - 1))) h ∧
    (∀ m : Int, m < 0 → isMaxLen restore (some m) h = .error .negativeCount)

/-- R86: `ISMAXLEN` answers on every legal instance, after at most `M` iterations: it issues at most `M` of
`STATE` and at most `M` of `ADVANCE`, for both choices of R87. R86 bounds the iterations and the `ADVANCE`
commands; that `STATE` is issued in the loop only, and so at most `M` times, is the model's reading of R87 and
P3 (log entry 19). -/
def Obligations.IsMaxLenEndsWithinItsBound : Prop :=
  ∀ (restore : Bool) (M : Nat) (h : Session) (x : Generator), h.block.gen = some x → x.Legal →
    ∃ b h' issued, isMaxLen restore (some M) h = .ok (b, h') ∧ h'.log = h.log ++ issued ∧
      (issued.countP fun c => decide (c.1 = .state)) ≤ M ∧
      (issued.countP fun c => decide (c.1 = .advance)) ≤ M

/-- R85: the verdict of `ISMAXLEN` under a bound `M`: true exactly when the first `2^SIZE - 1` states are
distinct, the bound lets that many be counted, and then either the bound is used up (D11) or the next state
is a repeat. The states are those of successive advances from the current one; both choices of R87. D11 is one
of the readings the spec flags (log entry 16). -/
def Obligations.IsMaxLenVerdict : Prop :=
  ∀ (restore : Bool) (M : Nat) (h : Session) (x : Generator), h.block.gen = some x → x.Legal →
    ∃ b h', isMaxLen restore (some M) h = .ok (b, h') ∧
      (b = true ↔
        2 ^ x.size - 1 ≤ M ∧
        (∀ i j, i < j → j < 2 ^ x.size - 1 →
          regAt x.size x.taps x.value i ≠ regAt x.size x.taps x.value j) ∧
        (M = 2 ^ x.size - 1 ∨ ∃ i < 2 ^ x.size - 1,
          regAt x.size x.taps x.value i = regAt x.size x.taps x.value (2 ^ x.size - 1)))

/-- R85, R87: what `ISMAXLEN` leaves behind. The scan stops after `k` advances: the first `k` states are distinct,
and either the bound is used up or state `k` repeats one of them, which together determine `k`. The verdict is the
same for both choices of R87; an FLFSR4 is left where the scan stopped, whichever choice is made; a GLFSR is left
in the state before the call if it is restored, and where the scan stopped, with its taps, if not. -/
def Obligations.IsMaxLenLeavesStartOrStop : Prop :=
  ∀ (M : Nat) (h : Session) (x : Generator), h.block.gen = some x → x.Legal →
    ∃ b k h1 h2, k ≤ M ∧
      (∀ i j, i < j → j < k → regAt x.size x.taps x.value i ≠ regAt x.size x.taps x.value j) ∧
      (k = M ∨ ∃ i < k, regAt x.size x.taps x.value i = regAt x.size x.taps x.value k) ∧
      isMaxLen true (some M) h = .ok (b, h1) ∧ isMaxLen false (some M) h = .ok (b, h2) ∧
      (∀ f, x = .fixed f → h1 = h2 ∧
        h2.block.gen = some (.fixed { reg := BitVec.ofNat 4 (regAt 4 [3, 0] f.reg.toNat k) })) ∧
      (∀ g, x = .general g → h1.block.gen = h.block.gen ∧
        h2.block.gen = some (.general { g with reg := regAt g.size g.taps g.reg k }))

/-- R87, R88: when position 0 is listed an odd number of times and the default bound is used on a register of
at least 2 bits, the scan stops in the state it started from, so both choices leave the instance as it was. -/
def Obligations.IsMaxLenReturnsToStartWhenBijective : Prop :=
  ∀ (restore : Bool) (h : Session) (x : Generator), h.block.gen = some x → x.Legal → 2 ≤ x.size →
    x.taps.count 0 % 2 = 1 →
    ∃ b h', isMaxLen restore none h = .ok (b, h') ∧ h'.block.gen = h.block.gen

/-- R89: `BITS2BYTES` of a sequence of bits: as many bytes as groups of eight, the last filled up with zeros,
the first bit of each group in bit 7. -/
def Obligations.PackingFillsFromBitSeven : Prop :=
  ∀ (bits : List Bool), ∃ out, bitsToBytes (bits.map fun b => (b.toNat : Int)) = .ok out ∧
    out.length = (bits.length + 7) / 8 ∧
    ∀ j i, j < out.length → i < 8 → ((out.getD j 0#8).getLsbD (7 - i)) = bits.getD (8 * j + i) false

/-- R90: a sequence with an element other than 0 and 1 is refused, and no other. -/
def Obligations.PackingRefusesOnlyNonBits : Prop :=
  ∀ (bits : List Int), (∃ r, bitsToBytes bits = .error r) ↔ ∃ v ∈ bits, v ≠ 0 ∧ v ≠ 1

/-- R91: the laws of packing. -/
def Obligations.PackingLaws : Prop :=
  (∀ bits : List Bool, (packBits bits).length = (bits.length + 7) / 8) ∧
  (∀ a b : List Bool, a.length % 8 = 0 → packBits (a ++ b) = packBits a ++ packBits b) ∧
  (∀ bits : List Bool, bits.length % 8 ≠ 0 → packBits bits = packBits (bits ++ [false])) ∧
  (∀ (bits : List Bool) (k : Nat), k < bits.length →
    ((packBits bits).getD (k / 8) 0#8).getLsbD (7 - k % 8) = bits.getD k false)

/-- R35: packing the first eight outputs of an 8-bit register gives one byte, the bit-reversal of the
register. -/
def Obligations.PackedOutputsReverseTheRegister : Prop :=
  ∀ (s : State) (g : Glfsr), s.gen = some (.general g) → g.Legal → g.size = 8 →
    ∃ bs h byte, genSeq 8 (Session.start s) = .ok (bs, h) ∧ packBits bs = [byte] ∧
      ∀ i < 8, byte.getLsbD i = g.reg.testBit (7 - i)

/-! ### Several blocks -/

/-- R27, R105: a command to one instance leaves every other as it was, and commands to different instances
commute. -/
def Obligations.InstancesAreIndependent : Prop :=
  ∀ (σ σ1 σ2 : System) (a b : Nat) (i j : Instr), a ≠ b →
    System.issue a i σ = .next σ1 → System.issue b j σ1 = .next σ2 →
    (∀ k, k ≠ a → σ1[k]? = σ[k]?) ∧ σ1.length = σ.length ∧
    ∃ σ1', System.issue b j σ = .next σ1' ∧ System.issue a i σ1' = .next σ2
end

