-- ==== Sys2Proof/Laws/Bits.lean ====
section
/-! SUPPORT. Wire bundles and the numbers they carry (R48, R49). -/

namespace Sys2Proof

@[simp] theorem natToBits_length (n v : Nat) : (natToBits n v).length = n := by
  induction n generalizing v with
  | zero => rfl
  | succ n ih => simp [natToBits, ih]

theorem bitsToNat_lt (bs : Bits) : bitsToNat bs < 2 ^ bs.length := by
  induction bs with
  | nil => simp [bitsToNat]
  | cons b bs ih =>
    have hb : b.toNat ≤ 1 := by cases b <;> simp
    simp only [bitsToNat, List.length_cons, pow_succ]
    omega

theorem bitsToNat_natToBits (n v : Nat) : bitsToNat (natToBits n v) = v % 2 ^ n := by
  induction n generalizing v with
  | zero => simp [natToBits, bitsToNat, Nat.mod_one]
  | succ n ih =>
    simp only [natToBits, bitsToNat, ih, Nat.testBit_zero]
    have h2 : v % 2 ^ (n + 1) = v % 2 + 2 * (v / 2 % 2 ^ n) := by
      rw [pow_succ, Nat.mul_comm, Nat.mod_mul]
    rcases Nat.mod_two_eq_zero_or_one v with h | h <;> simp [h, h2]

theorem half_cons (b : Bool) (bs : Bits) : (b.toNat + 2 * bitsToNat bs) / 2 = bitsToNat bs := by
  have hb : b.toNat ≤ 1 := by cases b <;> simp
  omega

theorem natToBits_bitsToNat (bs : Bits) : natToBits bs.length (bitsToNat bs) = bs := by
  induction bs with
  | nil => rfl
  | cons b bs ih =>
    have hd := half_cons b bs
    have hb : (b.toNat + 2 * bitsToNat bs).testBit 0 = b := by cases b <;> simp [Nat.testBit_zero]
    simp only [List.length_cons, natToBits, bitsToNat, hd, hb, ih]

theorem testBit_bitsToNat (bs : Bits) (i : Nat) : (bitsToNat bs).testBit i = bs.getD i false := by
  induction bs generalizing i with
  | nil => simp [bitsToNat]
  | cons b bs ih =>
    cases i with
    | zero => cases b <;> simp [bitsToNat, Nat.testBit_zero]
    | succ i =>
      have hd := half_cons b bs
      simp [bitsToNat, Nat.testBit_succ, hd, ih]

theorem natToBits_getD (n v i : Nat) (h : i < n) : (natToBits n v).getD i false = v.testBit i := by
  rw [← testBit_bitsToNat, bitsToNat_natToBits, Nat.testBit_mod_two_pow]
  simp [h]

/-- The value of a bundle as the sum the spec writes (R48). -/
theorem bitsToNat_eq_sum (bs : Bits) :
    bitsToNat bs = ((List.range bs.length).map fun i => (bs.getD i false).toNat * 2 ^ i).sum := by
  induction bs with
  | nil => rfl
  | cons b bs ih =>
    have e : ∀ n : Nat, ∀ f : Nat → Nat, ((List.range n).map fun i => f i * 2 ^ (i + 1)).sum
        = 2 * ((List.range n).map fun i => f i * 2 ^ i).sum := by
      intro n f
      induction n with
      | zero => rfl
      | succ n ihn =>
        rw [List.range_succ]
        simp only [List.map_append, List.sum_append, List.map_cons, List.map_nil, List.sum_cons, List.sum_nil,
          ihn]
        ring
    rw [List.length_cons, List.range_succ_eq_map]
    simp only [List.map_cons, List.map_map, List.sum_cons, Function.comp_def, List.getD_cons_zero,
      List.getD_cons_succ, bitsToNat, pow_zero, Nat.mul_one, e, ih, Nat.succ_eq_add_one]

/-- The top wire of a bundle says whether its value is at least half the range. -/
theorem getLastD_eq_decide (bs : Bits) (h : bs ≠ []) :
    bs.getLastD false = decide (2 ^ (bs.length - 1) ≤ bitsToNat bs) := by
  obtain ⟨cs, b, rfl⟩ : ∃ cs b, bs = cs ++ [b] := ⟨_, _, (List.dropLast_append_getLast h).symm⟩
  have hv : bitsToNat (cs ++ [b]) = bitsToNat cs + b.toNat * 2 ^ cs.length := by
    clear h
    induction cs with
    | nil => simp [bitsToNat]
    | cons c cs ih =>
      simp only [List.cons_append, bitsToNat, ih, List.length_cons, pow_succ]
      ring
  have hlt := bitsToNat_lt cs
  cases b <;> simp [hv, hlt]

/-- Reading back a two's complement number that fits (R49). -/
theorem bitsToInt_intToBits (n : Nat) (t : Int) (hn : 1 ≤ n) (hlo : -(2 ^ (n - 1)) ≤ t)
    (hhi : t < 2 ^ (n - 1)) : bitsToInt (intToBits n t) = t := by
  obtain ⟨m, rfl⟩ : ∃ m, n = m + 1 := ⟨n - 1, by omega⟩
  have hp : (2 : Int) ^ (m + 1) = 2 * 2 ^ m := by ring
  have hpn : (2 : Nat) ^ (m + 1) = 2 * 2 ^ m := by ring
  have hc : ((2 ^ m : Nat) : Int) = 2 ^ m := by push_cast; rfl
  have hpos : (0 : Int) < 2 ^ m := by positivity
  simp only [Nat.add_sub_cancel] at hlo hhi
  have hne : intToBits (m + 1) t ≠ [] := by
    intro h
    have := congrArg List.length h
    simp [intToBits] at this
  have hlen : (intToBits (m + 1) t).length = m + 1 := by simp [intToBits]
  have hval : bitsToNat (intToBits (m + 1) t) = (t % 2 ^ (m + 1)).toNat := by
    rw [intToBits, bitsToNat_natToBits, Nat.mod_eq_of_lt]
    have h1 := Int.emod_lt_of_pos t (show (0 : Int) < 2 ^ (m + 1) by positivity)
    have h0 := Int.emod_nonneg t (show (2 : Int) ^ (m + 1) ≠ 0 by positivity)
    rw [hpn]
    omega
  rw [bitsToInt, getLastD_eq_decide _ hne, hlen, hval, Nat.add_sub_cancel]
  rcases lt_or_ge t 0 with ht | ht
  · have he : t % 2 ^ (m + 1) = t + 2 ^ (m + 1) := by
      rw [← Int.add_emod_right, Int.emod_eq_of_lt] <;> omega
    rw [he]
    have : 2 ^ m ≤ (t + 2 ^ (m + 1)).toNat := by omega
    simp only [this, decide_true, if_true]
    omega
  · have he : t % 2 ^ (m + 1) = t := by rw [Int.emod_eq_of_lt] <;> omega
    rw [he]
    have : ¬ 2 ^ m ≤ t.toNat := by omega
    simp only [this, decide_false]
    simp
    omega

/-- A two's complement bundle is the form of its own value. -/
theorem intToBits_bitsToInt (bs : Bits) : intToBits bs.length (bitsToInt bs) = bs := by
  have hlt := bitsToNat_lt bs
  have hc : ((2 ^ bs.length : Nat) : Int) = 2 ^ bs.length := by push_cast; rfl
  have hmod : bitsToInt bs % 2 ^ bs.length = bitsToNat bs := by
    unfold bitsToInt
    split
    · rw [Int.sub_emod_right, Int.emod_eq_of_lt] <;> omega
    · rw [Int.emod_eq_of_lt] <;> omega
  rw [intToBits, hmod, Int.toNat_natCast, natToBits_bitsToNat]

/-- The value of a two's complement bundle is in its range (R49). -/
theorem bitsToInt_range (bs : Bits) (h : bs ≠ []) :
    -(2 ^ (bs.length - 1)) ≤ bitsToInt bs ∧ bitsToInt bs < 2 ^ (bs.length - 1) := by
  have hlt := bitsToNat_lt bs
  have hl : bs.length = (bs.length - 1) + 1 := by
    have := List.length_pos_iff.2 h
    omega
  have hpn : (2 : Nat) ^ bs.length = 2 * 2 ^ (bs.length - 1) := by
    conv_lhs => rw [hl]
    ring
  have hp : (2 : Int) ^ bs.length = 2 * 2 ^ (bs.length - 1) := by
    conv_lhs => rw [hl]
    ring
  have hc : ((2 ^ (bs.length - 1) : Nat) : Int) = 2 ^ (bs.length - 1) := by push_cast; rfl
  rw [bitsToInt, getLastD_eq_decide _ h, hp]
  by_cases hd : 2 ^ (bs.length - 1) ≤ bitsToNat bs <;> simp only [hd, decide_true, decide_false] <;> simp <;> omega

end Sys2Proof
end

