-- ==== Sys2Proof/Laws/Register.lean ====
section
/-! SUPPORT. The shift register's functions: bits of the next state, the feedback as a function of the list,
the state string. -/

namespace Sys2Proof.Machine

/-! ### Operand checks -/

theorem tapsValid_iff {n : Nat} {L : List Int} :
    tapsValid n L = true ↔ ∀ t ∈ L, 0 ≤ t ∧ t ≤ (n : Int) - 1 := by
  simp [tapsValid, tapValid]

theorem cast_maxValue (n : Nat) : ((maxValue n : Nat) : Int) = 2 ^ n - 1 := by
  have := Nat.one_le_two_pow (n := n)
  simp [maxValue, Nat.cast_sub this]

theorem seedFits_iff {n : Nat} {v : Int} : seedFits n v = true ↔ v ≤ 2 ^ n - 1 := by
  simp [seedFits, cast_maxValue]

/-! ### Feedback -/

@[simp] theorem feedback_nil (S : Nat) : feedback S [] = false := rfl

@[simp] theorem feedback_cons (S : Nat) (t : Int) (L : List Int) :
    feedback S (t :: L) = xor (tapBit S t) (feedback S L) := rfl

@[simp] theorem tapBit_natCast (S p : Nat) : tapBit S (p : Int) = S.testBit p := rfl

@[simp] theorem tapBit_zero (t : Int) : tapBit 0 t = false := by
  cases t <;> simp [tapBit]

@[simp] theorem feedback_zero (L : List Int) : feedback 0 L = false := by
  induction L with
  | nil => rfl
  | cons t L ih => simp [ih]

theorem tapBit_of_nonneg {S : Nat} {t : Int} (h : 0 ≤ t) : tapBit S t = S.testBit t.toNat := by
  obtain ⟨p, rfl⟩ := Int.eq_ofNat_of_zero_le h
  simp

/-- The feedback is the parity of the number of listed positions whose bit is 1 (R67). -/
theorem feedback_eq_parity_count (S : Nat) (L : List Int) :
    feedback S L = decide ((L.filter (tapBit S)).length % 2 = 1) := by
  induction L with
  | nil => rfl
  | cons t L ih =>
    cases h : tapBit S t
    · simp [h, ih]
    · rw [feedback_cons, h, ih, List.filter_cons_of_pos (by simp [h]), List.length_cons]
      rcases Nat.mod_two_eq_zero_or_one (L.filter (tapBit S)).length with e | e <;>
        simp [e, Nat.add_mod]

/-! ### The next state -/

/-- Every bit of the next state (R68). -/
theorem testBit_nextReg {n S : Nat} (L : List Int) (hn : 1 ≤ n) (hS : S < 2 ^ n) (i : Nat) :
    (nextReg n S L).testBit i = if i + 1 = n then feedback S L else S.testBit (i + 1) := by
  have hshift : (S >>> 1).testBit i = S.testBit (i + 1) := by
    rw [Nat.testBit_shiftRight, Nat.add_comm]
  have htop : S.testBit n = false := Nat.testBit_lt_two_pow hS
  rw [nextReg, Nat.testBit_or, hshift, ← Nat.shiftLeft_eq, Nat.testBit_shiftLeft]
  by_cases h : i + 1 = n
  · subst h
    cases feedback S L <;> simp [htop]
  · rw [if_neg h]
    by_cases hi : n - 1 ≤ i
    · have h1 : ∃ d, i - (n - 1) = d + 1 := ⟨i - n, by omega⟩
      obtain ⟨d, hd⟩ := h1
      cases feedback S L <;> simp [hd, Nat.testBit_succ]
    · simp [hi]

theorem nextReg_zero (n : Nat) (L : List Int) : nextReg n 0 L = 0 := by
  simp [nextReg]

/-! ### The mask -/

theorem testBit_tapMask (n : Nat) (L : List Int) (p : Nat) :
    (tapMask n L).testBit p = (decide (p < n) && maskBit L p) := by
  rw [tapMask, testBit_bitsToNat]
  by_cases h : p < n <;> simp [h, List.getD_eq_getElem?_getD]

/-- The XOR over the first `n` numbers of a sum in GF(2) splits. -/
theorem foldr_xor_add (n : Nat) (f g : Nat → Bool) :
    (List.range n).foldr (fun p acc => xor (xor (f p) (g p)) acc) false =
      xor ((List.range n).foldr (fun p acc => xor (f p) acc) false)
        ((List.range n).foldr (fun p acc => xor (g p) acc) false) := by
  induction List.range n with
  | nil => rfl
  | cons a l ih =>
    simp only [List.foldr_cons, ih]
    cases f a <;> cases g a <;> simp

/-- The XOR over the first `n` numbers of a function that is nonzero at one place only. -/
theorem foldr_xor_single (n p : Nat) (b : Bool) (h : p < n) :
    (List.range n).foldr (fun q acc => xor (decide (q = p) && b) acc) false = b := by
  have key : ∀ l : List Nat, l.Nodup →
      l.foldr (fun q acc => xor (decide (q = p) && b) acc) false = (decide (p ∈ l) && b) := by
    intro l
    induction l with
    | nil => simp
    | cons a l ih =>
      intro hl
      obtain ⟨ha, hl⟩ := List.nodup_cons.1 hl
      rw [List.foldr_cons, ih hl]
      by_cases e : a = p
      · subst e
        simp [ha]
      · have e' : p ≠ a := fun h => e h.symm
        simp [e, e']
  rw [key _ List.nodup_range]
  simp [h]

/-- The feedback through the mask, as an XOR over positions (R18, R76). -/
theorem feedback_eq_foldr_mask {n S : Nat} {L : List Int} (hL : ∀ t ∈ L, 0 ≤ t ∧ t < (n : Int)) :
    feedback S L = (List.range n).foldr (fun p acc => xor (maskBit L p && S.testBit p) acc) false := by
  induction L with
  | nil =>
    have h0 : ∀ p, maskBit ([] : List Int) p = false := by intro p; simp [maskBit]
    simp only [feedback_nil, h0, Bool.false_and]
    induction List.range n with
    | nil => rfl
    | cons a l ih => rw [List.foldr_cons, ← ih]; rfl
  | cons t L ih =>
    obtain ⟨⟨h0, h1⟩, hL'⟩ := List.forall_mem_cons.1 hL
    obtain ⟨q, rfl⟩ := Int.eq_ofNat_of_zero_le h0
    have hmask : ∀ p, maskBit ((q : Int) :: L) p = xor (decide (p = q)) (maskBit L p) := by
      intro p
      by_cases e : p = q
      · subst e
        rcases Nat.mod_two_eq_zero_or_one (L.count (p : Int)) with h | h <;>
          simp [maskBit, Nat.add_mod, h]
      · have : (q : Int) ≠ (p : Int) := by omega
        simp [maskBit, e, this]
    have hterm : ∀ p, (maskBit ((q : Int) :: L) p && S.testBit p) =
        xor (decide (p = q) && S.testBit q) (maskBit L p && S.testBit p) := by
      intro p
      rw [hmask]
      by_cases e : p = q
      · subst e
        cases maskBit L p <;> cases S.testBit p <;> simp
      · simp [e]
    simp only [hterm]
    rw [foldr_xor_add, foldr_xor_single n q (S.testBit q) (by omega), feedback_cons, tapBit_natCast, ih hL']

/-! ### The state string -/

@[simp] theorem stateString_length (n S : Nat) : (stateString n S).length = n := by simp [stateString]

theorem stateString_getElem? {n S k : Nat} (h : k < n) :
    (stateString n S)[k]? = some (digit (S.testBit (n - 1 - k))) := by
  simp [stateString, h]

/-- The string of a register spells the register (R33, R70). -/
theorem stringValue_stateString (n S : Nat) : stringValue (stateString n S) = S % 2 ^ n := by
  induction n generalizing S with
  | zero => simp [stateString, stringValue, Nat.mod_one]
  | succ n ih =>
    have hsplit : stateString (n + 1) S = stateString n (S / 2) ++ [digit (S.testBit 0)] := by
      rw [stateString, List.range_succ, List.map_append, stateString]
      congr 1
      · apply List.map_congr_left
        intro k hk
        have hk' := List.mem_range.1 hk
        rw [show n + 1 - 1 - k = (n - 1 - k) + 1 by omega, Nat.testBit_succ]
      · simp
    have h2 : S % 2 ^ (n + 1) = S % 2 + 2 * (S / 2 % 2 ^ n) := by
      rw [pow_succ, Nat.mul_comm, Nat.mod_mul]
    have hih := ih (S / 2)
    rw [stringValue] at hih ⊢
    rw [hsplit, List.foldl_append, hih, h2]
    rcases Nat.mod_two_eq_zero_or_one S with e | e
    · simp [digit, Nat.testBit_zero, e]
    · simp [digit, Nat.testBit_zero, e]
      omega

/-- Two registers in range with the same string are the same (R33). -/
theorem stateString_injective {n S T : Nat} (hS : S < 2 ^ n) (hT : T < 2 ^ n)
    (h : stateString n S = stateString n T) : S = T := by
  have := congrArg stringValue h
  rwa [stringValue_stateString, stringValue_stateString, Nat.mod_eq_of_lt hS, Nat.mod_eq_of_lt hT] at this

/-! ### The Fixed LFSR as a register of width 4 -/

theorem Flfsr4.string_eq (f : Flfsr4) : f.string = stateString 4 f.reg.toNat := by
  simp [Flfsr4.string, stateString, List.range_succ, BitVec.testBit_toNat]

theorem Flfsr4.outBit_eq (f : Flfsr4) : f.outBit = Machine.outBit f.reg.toNat := by
  rw [Flfsr4.outBit, Machine.outBit, BitVec.testBit_toNat]

/-- R63 is R68 at width 4 and taps `[3, 0]` (R80). -/
theorem Flfsr4.next_toNat (f : Flfsr4) : f.next.reg.toNat = nextReg 4 f.reg.toNat [3, 0] := by
  obtain ⟨r⟩ := f
  revert r
  decide

end Sys2Proof.Machine
end

