-- ==== Sys2Proof/Laws/State.lean ====
section
/-! SUPPORT. The fields of a state after each named operation, and what each operation can answer. -/

namespace Sys2Proof.Machine

/-! ### Reading a generator -/

@[simp] theorem Generator.size_fixed (f : Flfsr4) : (Generator.fixed f).size = 4 := rfl
@[simp] theorem Generator.size_general (g : Glfsr) : (Generator.general g).size = g.size := rfl
@[simp] theorem Generator.taps_fixed (f : Flfsr4) : (Generator.fixed f).taps = [3, 0] := rfl
@[simp] theorem Generator.taps_general (g : Glfsr) : (Generator.general g).taps = g.taps := rfl
@[simp] theorem Generator.value_fixed (f : Flfsr4) : (Generator.fixed f).value = f.reg.toNat := rfl
@[simp] theorem Generator.value_general (g : Glfsr) : (Generator.general g).value = g.reg := rfl

/-! ### Presenting a command -/

@[simp] theorem State.presentNext_gen (s : State) (p : CmdPorts) : (s.presentNext p).gen = s.gen := rfl
@[simp] theorem State.presentNext_rsp (s : State) (p : CmdPorts) : (s.presentNext p).rsp = s.rsp := rfl
@[simp] theorem State.presentNext_script (s : State) (p : CmdPorts) :
    (s.presentNext p).script = .present [p] :: s.script := rfl

/-! ### Ending a step -/

@[simp] theorem answer_eq_next {v : Value} {s s' : State} :
    answer v s = .next s' ↔ s' = { s with rsp := some (.ok v) } := by
  simp [answer, eq_comm]

@[simp] theorem commit_eq_next {x : Generator} {v : Value} {s s' : State} :
    commit x v s = .next s' ↔ s' = { s with gen := some x, rsp := some (.ok v) } := by
  simp [commit, eq_comm]

@[simp] theorem raise_eq_next {k : ErrorKind} {s s' : State} :
    raise k s = .next s' ↔ s' = { s with rsp := some (.error k) } := by
  simp [raise, eq_comm]

@[simp] theorem idle_eq_next {s s' : State} : idle s = .next s' ↔ s' = { s with rsp := none } := by
  simp [idle, eq_comm]

/-! ### The instance a command runs on -/

theorem State.gen_cases (s : State) :
    s.gen = none ∨ (∃ f, s.gen = some (.fixed f)) ∨ (∃ g, s.gen = some (.general g)) := by
  rcases s with ⟨_ | f | g, _, _⟩ <;> simp

theorem onGenerator_none {s : State} (h : s.gen = none) (F : Flfsr4 → Result) (G : Glfsr → Result) :
    onGenerator F G s = .refused .noInstance := by
  simp [onGenerator, h]

theorem onGenerator_fixed {s : State} {f : Flfsr4} (h : s.gen = some (.fixed f)) (F : Flfsr4 → Result)
    (G : Glfsr → Result) : onGenerator F G s = F f := by
  simp [onGenerator, h]

theorem onGenerator_general {s : State} {g : Glfsr} (h : s.gen = some (.general g)) (F : Flfsr4 → Result)
    (G : Glfsr → Result) : onGenerator F G s = G g := by
  simp [onGenerator, h]

/-! ### Legality -/

theorem State.legal_of_gen_none {s : State} (h : s.gen = none) : s.Legal := by
  intro x hx
  simp [h] at hx

theorem State.legal_iff {s : State} {x : Generator} (h : s.gen = some x) : s.Legal ↔ x.Legal := by
  simp [State.Legal, h]

theorem State.legal_congr {s t : State} (h : s.gen = t.gen) : s.Legal ↔ t.Legal := by
  simp [State.Legal, h]

end Sys2Proof.Machine
end

