-- ==== Sys2Proof/Laws/Exec.lean ====
section
/-! SUPPORT. What each command does on each variant, everything a command can do (`exec_cases`), and
everything a step can do (`step_cases`). -/

namespace Sys2Proof.Machine

/-! ### The commands, by variant -/

section
variable {s : State}

theorem exec_noInstance (h : s.gen = none) (i : Instr) : exec i s = .refused .noInstance := by
  cases i <;> exact onGenerator_none h _ _

theorem exec_state_fixed {f : Flfsr4} (h : s.gen = some (.fixed f)) :
    exec .state s = answer (.str f.string) s :=
  onGenerator_fixed h _ _

theorem exec_advance_fixed {f : Flfsr4} (h : s.gen = some (.fixed f)) :
    exec .advance s = commit (.fixed f.next) (.bit f.outBit) s :=
  onGenerator_fixed h _ _

theorem exec_setTaps_fixed {f : Flfsr4} (h : s.gen = some (.fixed f)) (L : List Int) :
    exec (.setTaps L) s = .refused .variantLacksOperation :=
  onGenerator_fixed h _ _

theorem exec_resetS_fixed {f : Flfsr4} (h : s.gen = some (.fixed f)) (v : Int) :
    exec (.resetS v) s = .refused .variantLacksOperation :=
  onGenerator_fixed h _ _

theorem exec_resetN_fixed {f : Flfsr4} (h : s.gen = some (.fixed f)) :
    exec .resetN s = .refused .variantLacksOperation :=
  onGenerator_fixed h _ _

theorem exec_state_general {g : Glfsr} (h : s.gen = some (.general g)) :
    exec .state s = answer (.str (stateString g.size g.reg)) s :=
  onGenerator_general h _ _

theorem exec_advance_general {g : Glfsr} (h : s.gen = some (.general g)) :
    exec .advance s =
      commit (.general { g with reg := nextReg g.size g.reg g.taps }) (.bit (outBit g.reg)) s :=
  onGenerator_general h _ _

theorem exec_setTaps_general {g : Glfsr} (h : s.gen = some (.general g)) (L : List Int) :
    exec (.setTaps L) s = generalSetTaps L s g :=
  onGenerator_general h _ _

theorem exec_resetS_general {g : Glfsr} (h : s.gen = some (.general g)) (v : Int) :
    exec (.resetS v) s = generalResetS v s g :=
  onGenerator_general h _ _

theorem exec_resetN_general {g : Glfsr} (h : s.gen = some (.general g)) :
    exec .resetN s = answer (.num g.reg) s :=
  onGenerator_general h _ _

end

/-- A command reads neither the last response nor, but for keeping it, the script. -/
theorem exec_setRsp (i : Instr) (s : State) (r : Option Response) : exec i { s with rsp := r } = exec i s := by
  obtain ⟨gen, rsp, script⟩ := s
  rcases gen with _ | f | g
  · rw [exec_noInstance rfl, exec_noInstance rfl]
  · cases i <;> rfl
  · cases i <;> rfl

/-- Everything a command can do when it goes on: which instance, which command, which next state. -/
theorem exec_cases {i : Instr} {s s' : State} (h : exec i s = .next s') :
    (∃ f, s.gen = some (.fixed f) ∧ i = .state ∧ s' = { s with rsp := some (.ok (.str f.string)) }) ∨
    (∃ f, s.gen = some (.fixed f) ∧ i = .advance ∧
      s' = { s with gen := some (.fixed f.next), rsp := some (.ok (.bit f.outBit)) }) ∨
    (∃ g, s.gen = some (.general g) ∧ i = .state ∧
      s' = { s with rsp := some (.ok (.str (stateString g.size g.reg))) }) ∨
    (∃ g, s.gen = some (.general g) ∧ i = .advance ∧
      s' = { s with gen := some (.general { g with reg := nextReg g.size g.reg g.taps }),
                    rsp := some (.ok (.bit (outBit g.reg))) }) ∨
    (∃ g L, s.gen = some (.general g) ∧ i = .setTaps L ∧ tapsValid g.size L = true ∧
      s' = { s with gen := some (.general { g with taps := L }), rsp := some (.ok (.taps L)) }) ∨
    (∃ g L, s.gen = some (.general g) ∧ i = .setTaps L ∧ tapsValid g.size L = false ∧
      s' = { s with rsp := some (.error .invalidTaps) }) ∨
    (∃ g v, s.gen = some (.general g) ∧ i = .resetS v ∧ 0 ≤ v ∧ seedFits g.size v = true ∧
      s' = { s with gen := some (.general { g with reg := v.toNat }), rsp := some (.ok (.num v.toNat)) }) ∨
    (∃ g v, s.gen = some (.general g) ∧ i = .resetS v ∧ 0 ≤ v ∧ seedFits g.size v = false ∧
      s' = { s with rsp := some (.error .invalidSeed) }) ∨
    (∃ g, s.gen = some (.general g) ∧ i = .resetN ∧ s' = { s with rsp := some (.ok (.num g.reg)) }) := by
  obtain hg | ⟨f, hg⟩ | ⟨g, hg⟩ := s.gen_cases
  · rw [exec_noInstance hg] at h
    cases h
  · cases i with
    | state =>
      rw [exec_state_fixed hg, answer_eq_next] at h
      exact .inl ⟨f, hg, rfl, h⟩
    | advance =>
      rw [exec_advance_fixed hg, commit_eq_next] at h
      exact .inr (.inl ⟨f, hg, rfl, h⟩)
    | setTaps L =>
      rw [exec_setTaps_fixed hg] at h
      cases h
    | resetS v =>
      rw [exec_resetS_fixed hg] at h
      cases h
    | resetN =>
      rw [exec_resetN_fixed hg] at h
      cases h
  · cases i with
    | state =>
      rw [exec_state_general hg, answer_eq_next] at h
      exact .inr (.inr (.inl ⟨g, hg, rfl, h⟩))
    | advance =>
      rw [exec_advance_general hg, commit_eq_next] at h
      exact .inr (.inr (.inr (.inl ⟨g, hg, rfl, h⟩)))
    | setTaps L =>
      rw [exec_setTaps_general hg, generalSetTaps] at h
      cases hv : tapsValid g.size L
      · rw [hv, if_neg Bool.false_ne_true, raise_eq_next] at h
        exact .inr (.inr (.inr (.inr (.inr (.inl ⟨g, L, hg, rfl, hv, h⟩)))))
      · rw [hv, if_pos rfl, commit_eq_next] at h
        exact .inr (.inr (.inr (.inr (.inl ⟨g, L, hg, rfl, hv, h⟩))))
    | resetS v =>
      rw [exec_resetS_general hg, generalResetS] at h
      by_cases hn : v < 0
      · rw [if_pos hn] at h
        cases h
      · rw [if_neg hn] at h
        cases hv : seedFits g.size v
        · rw [hv, if_neg Bool.false_ne_true, raise_eq_next] at h
          exact .inr (.inr (.inr (.inr (.inr (.inr (.inr (.inl ⟨g, v, hg, rfl, by omega, hv, h⟩)))))))
        · rw [hv, if_pos rfl, commit_eq_next] at h
          exact .inr (.inr (.inr (.inr (.inr (.inr (.inl ⟨g, v, hg, rfl, by omega, hv, h⟩))))))
    | resetN =>
      rw [exec_resetN_general hg, answer_eq_next] at h
      exact .inr (.inr (.inr (.inr (.inr (.inr (.inr (.inr ⟨g, hg, rfl, h⟩)))))))

/-! ### Construction -/

/-- Everything `G.CONSTRUCT` can make. -/
theorem constructWith_made {n v : Int} {L : List Int} {x : Generator} (h : constructWith n L v = .made x) :
    1 ≤ n ∧ 0 ≤ v ∧ seedFits n.toNat v = true ∧ tapsValid n.toNat L = true ∧
      x = .general { size := n.toNat, taps := L, reg := v.toNat } := by
  unfold constructWith at h
  split at h
  · cases h
  split at h
  · cases h
  split at h
  · cases h
  split at h
  · cases h
  rename_i h1 h2 h3 h4
  refine ⟨by omega, by omega, by simpa using h3, by simpa using h4, ?_⟩
  exact (Construction.made.inj h).symm

/-- Everything a construction event can do when it goes on. -/
theorem powerOn_cases {c : Construction} {s s' : State} (h : powerOn c s = .next s') :
    (∃ x, c = .made x ∧ s' = { s with gen := some x, rsp := some (.ok .constructed) }) ∨
    (∃ k, c = .failed k ∧ s' = { s with gen := none, rsp := some (.error k) }) := by
  cases c with
  | made x => exact .inl ⟨x, rfl, by simpa [powerOn] using h⟩
  | failed k => exact .inr ⟨k, rfl, by simpa [powerOn] using h⟩
  | refused r => cases h

/-! ### The step -/

theorem step_of_script_nil {s : State} (h : s.script = []) : step s = idle s := by
  simp [step, takeNext, h]

theorem step_of_script_cons {s : State} {e : HostEvent} {rest : List HostEvent} (h : s.script = e :: rest) :
    step s = takeEvent e { s with script := rest } := by
  simp [step, takeNext, h]

/-- Everything a step can do when it goes on: nothing, a construction, or one decoded command. -/
theorem step_cases {s s' : State} (h : step s = .next s') :
    (s'.gen = s.gen ∧ s'.rsp = none) ∨
    (∃ c, (c = constructFixed ∨ ∃ r, c = constructGeneral r) ∧
      ∃ rest, powerOn c { s with script := rest } = .next s') ∨
    (∃ p i rest, s.script = .present [p] :: rest ∧ decode p = .ok i ∧
      exec i { s with script := rest } = .next s') := by
  cases hs : s.script with
  | nil =>
    rw [step_of_script_nil hs, idle_eq_next] at h
    subst h
    exact .inl ⟨rfl, rfl⟩
  | cons e rest =>
    rw [step_of_script_cons hs] at h
    cases e with
    | constructFixed => exact .inr (.inl ⟨_, .inl rfl, rest, h⟩)
    | constructGeneral r => exact .inr (.inl ⟨_, .inr ⟨r, rfl⟩, rest, h⟩)
    | present cmds =>
      match cmds with
      | [] =>
        rw [takeEvent, takeCommands, idle_eq_next] at h
        subst h
        exact .inl ⟨rfl, rfl⟩
      | [p] =>
        rw [takeEvent, takeCommands, takeCommand] at h
        cases hd : decode p with
        | ok i =>
          rw [hd] at h
          exact .inr (.inr ⟨p, i, rest, rfl, hd, h⟩)
        | error e =>
          rw [hd] at h
          cases h
      | _ :: _ :: _ => cases h

end Sys2Proof.Machine
end

