-- ==== Sys2Proof/Laws/HostProc.lean ====
section
/-! SUPPORT. The host's commands on an instance, as the procedures use them. -/

namespace Sys2Proof.Machine

/-- An instance of either variant with another register value, in range for an FLFSR4 by reduction. -/
def Generator.withValue (x : Generator) (v : Nat) : Generator :=
  match x with
  | .fixed _ => .fixed { reg := BitVec.ofNat 4 v }
  | .general g => .general { g with reg := v }

@[simp] theorem Generator.size_withValue (x : Generator) (v : Nat) : (x.withValue v).size = x.size := by
  cases x <;> rfl

@[simp] theorem Generator.taps_withValue (x : Generator) (v : Nat) : (x.withValue v).taps = x.taps := by
  cases x <;> rfl

@[simp] theorem Generator.withValue_value (x : Generator) : x.withValue x.value = x := by
  rcases x with ⟨⟨r⟩⟩ | g
  · simp [Generator.withValue, Generator.value]
  · rfl

theorem Generator.withValue_withValue (x : Generator) (v w : Nat) :
    (x.withValue v).withValue w = x.withValue w := by
  cases x <;> rfl

/-- The string `STATE` returns on either variant (R62, R70). -/
theorem exec_state {s : State} {x : Generator} (h : s.gen = some x) :
    exec .state s = .next { s with rsp := some (.ok (.str (stateString x.size x.value))) } := by
  rcases x with f | g
  · rw [exec_state_fixed h, Flfsr4.string_eq]
    rfl
  · rw [exec_state_general h]
    rfl

/-- `ADVANCE` on either variant, in the General LFSR's terms (R63, R74, R80). -/
theorem exec_advance {s : State} {x : Generator} (h : s.gen = some x) :
    exec .advance s = .next { s with gen := some (x.withValue (nextReg x.size x.value x.taps)),
                                     rsp := some (.ok (.bit (outBit x.value))) } := by
  rcases x with f | g
  · rw [exec_advance_fixed h, Flfsr4.outBit_eq]
    have hn : f.next = { reg := BitVec.ofNat 4 (nextReg 4 f.reg.toNat [3, 0]) } := by
      rw [← Flfsr4.next_toNat, BitVec.ofNat_toNat, BitVec.setWidth_eq]
    rw [commit, hn]
    rfl
  · rw [exec_advance_general h]
    rfl

/-- Issuing `STATE`: the string, the same instance, one more entry of the record. -/
theorem issueState_of_gen {h : Session} {x : Generator} (hx : h.block.gen = some x) :
    ∃ h', issueState h = .ok (stateString x.size x.value, h') ∧ h'.block.gen = some x ∧
      h'.log = h.log ++ [(.state, .ok (.str (stateString x.size x.value)))] := by
  refine ⟨⟨{ h.block with rsp := some (.ok (.str (stateString x.size x.value))) }, _⟩, ?_, hx, rfl⟩
  simp only [issueState, issue, exec_state hx]

/-- Issuing `ADVANCE`: the output bit, the next register, one more entry of the record. -/
theorem issueAdvance_of_gen {h : Session} {x : Generator} (hx : h.block.gen = some x) :
    ∃ h', issueAdvance h = .ok (outBit x.value, h') ∧
      h'.block.gen = some (x.withValue (nextReg x.size x.value x.taps)) ∧
      h'.log = h.log ++ [(.advance, .ok (.bit (outBit x.value)))] := by
  refine ⟨⟨{ h.block with gen := some (x.withValue (nextReg x.size x.value x.taps)),
                           rsp := some (.ok (.bit (outBit x.value))) }, _⟩, ?_, rfl, rfl⟩
  simp only [issueAdvance, issue, exec_advance hx]

/-- The register after one advance is the one the instance then holds (an FLFSR4's is in range). -/
@[simp] theorem Generator.value_withValue_next (x : Generator) :
    (x.withValue (nextReg x.size x.value x.taps)).value = nextReg x.size x.value x.taps := by
  rcases x with f | g
  · have h := f.next_toNat
    have hlt : nextReg 4 f.reg.toNat [3, 0] < 2 ^ 4 := h ▸ f.next.reg.isLt
    simpa [Generator.withValue] using hlt
  · rfl

/-- The same states, counted from the first advance. -/
theorem regAt_succ (n : Nat) (L : List Int) (S t : Nat) :
    regAt n L S (t + 1) = regAt n L (nextReg n S L) t := by
  induction t with
  | zero => rfl
  | succ t ih => rw [regAt, ih, regAt]

/-- The states after `t` more advances. -/
theorem regAt_add (n : Nat) (L : List Int) (S t u : Nat) :
    regAt n L S (t + u) = regAt n L (regAt n L S t) u := by
  induction u with
  | zero => rfl
  | succ u ih => rw [← Nat.add_assoc, regAt, ih, regAt]

/-- `k` advances of either variant: the outputs, the instance after them, the record of the commands. -/
theorem advances_of_gen (k : Nat) {h : Session} {x : Generator} (hx : h.block.gen = some x) :
    ∃ h', advances k h = .ok ((List.range k).map (outputAt x.size x.taps x.value), h') ∧
      h'.block.gen = some (x.withValue (regAt x.size x.taps x.value k)) ∧
      h'.log = h.log ++ (List.range k).map
        fun j => (.advance, .ok (.bit (outputAt x.size x.taps x.value j))) := by
  induction k generalizing h x with
  | zero => exact ⟨h, rfl, by simpa [regAt] using hx, by simp⟩
  | succ k ih =>
    obtain ⟨h1, e1, g1, l1⟩ := issueAdvance_of_gen hx
    obtain ⟨h2, e2, g2, l2⟩ := ih g1
    have hout : outputAt x.size x.taps (nextReg x.size x.value x.taps) =
        fun j => outputAt x.size x.taps x.value (j + 1) :=
      funext fun j => by rw [outputAt, outputAt, regAt_succ]
    simp only [Generator.size_withValue, Generator.taps_withValue, Generator.value_withValue_next, hout]
      at e2 g2 l2
    refine ⟨h2, ?_, ?_, ?_⟩
    · rw [advances, e1]
      simp only [e2, List.range_succ_eq_map, List.map_cons, List.map_map, Function.comp_def]
      rfl
    · rw [g2, Generator.withValue_withValue, regAt_succ]
    · rw [l2, l1, List.append_assoc, List.range_succ_eq_map]
      simp only [List.map_cons, List.map_map, Function.comp_def, List.cons_append, List.nil_append]
      rfl

/-- `GENSEQ` on either variant (R83). -/
theorem genSeq_of_gen (k : Nat) {h : Session} {x : Generator} (hx : h.block.gen = some x) :
    genSeq k h = advances k h := by
  simp [genSeq, hx]

end Sys2Proof.Machine
end

