-- ==== Sys2Proof/Laws/Packing.lean ====
section
/-! SUPPORT. The padding of `BITS2BYTES` (R89) and the acceptance of bits (R90). -/

namespace Sys2Proof.Machine

/-- The padded length is the least multiple of 8 that holds the sequence (R89). -/
theorem padded_length (bits : List Bool) : (padded bits).length = 8 * ((bits.length + 7) / 8) := by
  simp only [padded, padCount, List.length_append, List.length_replicate]
  omega

/-- Zeros appended to a sequence read as what lies past its end. -/
theorem getD_append_replicate_false (bits : List Bool) (n k : Nat) :
    (bits ++ List.replicate n false).getD k false = bits.getD k false := by
  simp only [List.getD_eq_getElem?_getD, List.getElem?_append, List.getElem?_replicate]
  split
  · rfl
  · rw [List.getElem?_eq_none (by omega)]
    split <;> rfl

/-- The padding reads as zeros, so padding changes no bit (R89). -/
theorem padded_getD (bits : List Bool) (k : Nat) : (padded bits).getD k false = bits.getD k false :=
  getD_append_replicate_false _ _ _

/-- A bit written as an integer is read as that bit. -/
@[simp] theorem asBit_toNat (b : Bool) : asBit (b.toNat : Int) = some b := by cases b <;> rfl

theorem mapM_asBit_toNat (bits : List Bool) :
    (bits.map fun b => (b.toNat : Int)).mapM asBit = some bits := by
  induction bits with
  | nil => rfl
  | cons b bits ih => simp [ih]

end Sys2Proof.Machine
end

