-- ==== Sys2Proof/Laws/PerInstr.lean ====
section
/-! SUPPORT. Statements made per instruction, one lemma for each constructor of `Instr`. -/

/-- The encoding of a command carries an opcode that the opcode map assigns, so it is never one of the
reserved ones (R47, R52). -/
def Sys2Proof.Laws.OpcodeAssigned.Statement (i : Sys2Proof.Instr) : Prop :=
  ∀ w : Sys2Proof.Widths, Sys2Proof.reservedOp (Sys2Proof.encode w i).op = false ∧
    (Sys2Proof.encode w i).op ∈ Sys2Proof.opcodeMap.map Sys2Proof.OpRow.op

namespace Sys2Proof.Laws.OpcodeAssigned

theorem state : Statement .state := fun _ => ⟨rfl, by simp [encode, quietPorts, opcodeMap]⟩

theorem advance : Statement .advance := fun _ => ⟨rfl, by simp [encode, quietPorts, opcodeMap]⟩

theorem setTaps (newTaps : List Int) : Statement (.setTaps newTaps) :=
  fun _ => ⟨rfl, by simp [encode, quietPorts, opcodeMap]⟩

theorem resetS (newSeed : Int) : Statement (.resetS newSeed) :=
  fun _ => ⟨rfl, by simp [encode, quietPorts, opcodeMap]⟩

theorem resetN : Statement .resetN := fun _ => ⟨rfl, by simp [encode, quietPorts, opcodeMap]⟩

end Sys2Proof.Laws.OpcodeAssigned
end

