-- ==== Sys2Proof/Tests/Slice0.lean ====
section
/-! SUPPORT. Tests of single steps against the vectors of 95_test_vectors.md and the words of
30_encoding.md, and a witness for the hypotheses of each statement. Each test names its source. -/

namespace Sys2Proof.Tests

open Sys2Proof.Machine

/-- A General LFSR as a state. -/
def glfsr (size : Nat) (taps : List Int) (reg : Nat) : State :=
  { State.blank with gen := some (.general { size := size, taps := taps, reg := reg }) }

/-- A Fixed LFSR as a state. -/
def flfsr (reg : Nibble) : State := { State.blank with gen := some (.fixed { reg := reg }) }

/-- The next state of a step, if it has one. -/
def after : Result → Option State
  | .next s => some s
  | _ => none

/-- The instance and the response after a step. -/
def seen (r : Result) : Option (Option Generator × Option Response) := (after r).map fun s => (s.gen, s.rsp)

/-- The reason of a refusal. -/
def refusal : Result → Option Refusal
  | .refused r => some r
  | _ => none

/-- Illustrative widths of 95_test_vectors.md section 7: `OPW = 8`, `KW = 4`. -/
def w84 : Widths := { opw := 8, kw := 4 }

/-- Wires from digits written most significant first, as the spec prints them. -/
def wires (ds : List Nat) : Bits := ds.reverse.map (· == 1)

/-! ### WellFormed: each check refuses an ill-formed term (R48, R49) -/

theorem test_wf_negative_seed : (Instr.resetS (-1)).wellFormed w84 = false := by decide
theorem test_wf_seed_too_wide : (Instr.resetS 256).wellFormed w84 = false := by decide
theorem test_wf_tap_too_low : (Instr.setTaps [0, -129]).wellFormed w84 = false := by decide
theorem test_wf_tap_too_high : (Instr.setTaps [128]).wellFormed w84 = false := by decide
theorem test_wf_narrow_bus : (Instr.setTaps [0]).wellFormed { opw := 1, kw := 4 } = false := by decide
theorem test_wf_too_many_taps : (Instr.setTaps (List.replicate 16 0)).wellFormed w84 = false := by decide
theorem test_wf_accepts :
    (Instr.resetS 255).wellFormed w84 = true ∧ (Instr.setTaps [-128, 127]).wellFormed w84 = true := by decide
theorem test_shape_refuses :
    ({ op := 1#4, seedIn := [], tapsK := wires [0, 0, 0, 0], tapsIn := [] } : CmdPorts).shaped w84 = false := by
  decide
theorem test_widths_must_exceed_size : w84.fits 8 = false ∧ w84.fits 7 = true := by decide

/-! ### Decoding: words written out from R47 to R49 and from programs P1 and P2 -/

/-- R47: `0001`. -/
theorem test_decode_state : decode { op := 0b0001#4, seedIn := [], tapsK := [], tapsIn := [] } = .ok .state := by
  rfl
/-- R47: `0010`. -/
theorem test_decode_advance : decode { op := 0b0010#4, seedIn := [], tapsK := [], tapsIn := [] } = .ok .advance := by
  rfl
/-- P2 line 4: `0011`, `K=0010`, `00000100`, `00000000` is `set_taps [4,0]`. -/
theorem test_decode_setTaps : decode
    { op := 0b0011#4, seedIn := [], tapsK := wires [0, 0, 1, 0],
      tapsIn := [wires [0, 0, 0, 0, 0, 1, 0, 0], wires [0, 0, 0, 0, 0, 0, 0, 0]] } = .ok (.setTaps [4, 0]) := by
  rfl
/-- R49: entries are two's complement: `11111111` is -1. -/
theorem test_decode_negative_tap : decode
    { op := 0b0011#4, seedIn := [], tapsK := wires [0, 0, 0, 1], tapsIn := [wires [1, 1, 1, 1, 1, 1, 1, 1]] }
      = .ok (.setTaps [-1]) := by
  rfl
/-- P2 line 10: `0100`, `00010000` is `reset 0b10000`. -/
theorem test_decode_resetS : decode
    { op := 0b0100#4, seedIn := wires [0, 0, 0, 1, 0, 0, 0, 0], tapsK := [], tapsIn := [] } = .ok (.resetS 16) := by
  rfl
/-- P2 line 13: `0101` is `reset`. -/
theorem test_decode_resetN : decode { op := 0b0101#4, seedIn := [], tapsK := [], tapsIn := [] } = .ok .resetN := by
  rfl
/-- R52: `0000` and `0110` select no command. -/
theorem test_decode_reserved :
    decode { op := 0b0000#4, seedIn := [], tapsK := [], tapsIn := [] } = .error (.reservedOpcode 0#4) ∧
    decode { op := 0b0110#4, seedIn := [], tapsK := [], tapsIn := [] } = .error (.reservedOpcode 6#4) :=
  ⟨rfl, rfl⟩
/-- R54: no two rows of the opcode map overlap, and none is reserved. -/
theorem test_opcode_map :
    (opcodeMap.map OpRow.op).Pairwise (· ≠ ·) ∧ (opcodeMap.all fun r => !reservedOp r.op) = true := by decide
/-- P2 line 6: the operand block of `set_taps [2,1]`. -/
theorem test_encode_setTaps : (encode w84 (.setTaps [2, 1])).tapsIn =
    [wires [0, 0, 0, 0, 0, 0, 1, 0], wires [0, 0, 0, 0, 0, 0, 0, 1]] := by decide
/-- The table words run as the first command after reset. -/
theorem test_first_command_after_reset :
    after (step (State.reset.withFetchWord 8 1)) = after (exec .state State.reset) ∧
    after (step (State.reset.withFetchWord 8 2)) = after (exec .advance State.reset) ∧
    after (step (State.reset.withFetchWord 8 3)) = after (exec (.setTaps []) State.reset) ∧
    after (step (State.reset.withFetchWord 8 4)) = after (exec (.resetS 0) State.reset) ∧
    after (step (State.reset.withFetchWord 8 5)) = after (exec .resetN State.reset) := by decide

/-! ### Commands -/

/-- F3. -/
theorem test_state_fixed : seen (exec .state (flfsr 0b0110#4)) =
    some (some (.fixed ⟨0b0110#4⟩), some (.ok (.str ['0', '1', '1', '0']))) := by decide
/-- G16: `SIZE=5, STATE=0b10010`. -/
theorem test_state_general : seen (exec .state (glfsr 5 [2, 0] 0b10010)) =
    some (some (.general ⟨5, [2, 0], 18⟩), some (.ok (.str ['1', '0', '0', '1', '0']))) := by decide
/-- R63 corner case (b): both taps set cancel. -/
theorem test_advance_fixed : seen (exec .advance (flfsr 0b1001#4)) =
    some (some (.fixed ⟨0b0100#4⟩), some (.ok (.bit true))) := by decide
/-- G2 row 3. -/
theorem test_advance_general : seen (exec .advance (glfsr 4 [2, 1] 0b0011)) =
    some (some (.general ⟨4, [2, 1], 0b1001⟩), some (.ok (.bit true))) := by decide
/-- G14: stored and returned as given. -/
theorem test_setTaps_keeps_order_and_repeats : seen (exec (.setTaps [0, 3, 3]) (glfsr 4 [3, 0] 6)) =
    some (some (.general ⟨4, [0, 3, 3], 6⟩), some (.ok (.taps [0, 3, 3]))) := by decide
/-- G14: one bad element rejects the whole list. -/
theorem test_setTaps_rejects_whole : seen (exec (.setTaps [3, 0, 4]) (glfsr 4 [3, 0] 6)) =
    some (some (.general ⟨4, [3, 0], 6⟩), some (.error .invalidTaps)) := by decide
/-- G15. -/
theorem test_resetS_largest_seed : seen (exec (.resetS 15) (glfsr 4 [3, 0] 3)) =
    some (some (.general ⟨4, [3, 0], 15⟩), some (.ok (.num 15))) := by decide
/-- G15. -/
theorem test_resetS_too_large : seen (exec (.resetS 16) (glfsr 4 [3, 0] 3)) =
    some (some (.general ⟨4, [3, 0], 3⟩), some (.error .invalidSeed)) := by decide
/-- G15, negative seed. -/
theorem test_resetS_negative : refusal (exec (.resetS (-1)) (glfsr 4 [3, 0] 3)) = some .negativeSeed := by decide
/-- G15, `reset` on `STATE=0b0011`. -/
theorem test_resetN_returns_state : seen (exec .resetN (glfsr 4 [3, 0] 3)) =
    some (some (.general ⟨4, [3, 0], 3⟩), some (.ok (.num 3))) := by decide
/-- F4. -/
theorem test_fixed_has_no_setTaps :
    refusal (exec (.setTaps [3, 0]) (flfsr 6#4)) = some .variantLacksOperation := by decide

/-! ### Construction, ports, procedures -/

/-- E3: the seed is checked first. -/
theorem test_construct_seed_first :
    constructGeneral { size := some 4, taps := some [4, 0], seed := some 31 } = .failed .invalidSeed := by decide
/-- E8 and E6. -/
theorem test_construct_defaults :
    constructGeneral { size := some 1, taps := none, seed := some 1 } = .made (.general ⟨1, [0, 0], 1⟩) ∧
    constructGeneral { size := some 2, taps := none, seed := none } = .failed .invalidSeed := by decide
/-- R51, D18: `rsp_state[3:0]` of `"0110"` and of 6. -/
theorem test_response_ports :
    ((Response.ok (.str ['0', '0', '1', '1'])).ports 4 w84).rspState = some (wires [0, 0, 1, 1]) ∧
    ((Response.ok (.num 3)).ports 4 w84).rspState = some (wires [0, 0, 1, 1]) := by decide
/-- U1. -/
theorem test_maxPeriod : maxPeriod 8 = .ok 255 ∧ maxPeriod 0 = .error .sizeBelowOne := ⟨rfl, rfl⟩
/-- U2, length 5. -/
theorem test_genSeq : (genSeq 5 (Session.start (flfsr 6#4))).toOption.map (fun r => (r.1, r.2.block.gen)) =
    some ([false, true, true, false, false], some (.fixed ⟨0b0001#4⟩)) := by decide
/-- U4, `size=2 taps=[]` from `10`: true although it ends stuck at 0, and the two states R87 admits. -/
theorem test_isMaxLen_choices :
    (isMaxLen false none (Session.start (glfsr 2 [] 2))).toOption.map (fun r => (r.1, r.2.block.gen)) =
      some (true, some (.general ⟨2, [], 0⟩)) ∧
    (isMaxLen true none (Session.start (glfsr 2 [] 2))).toOption.map (fun r => (r.1, r.2.block.gen)) =
      some (true, some (.general ⟨2, [], 2⟩)) := by decide
/-- U5: bounds 14 and 15 on a fresh FLFSR4. -/
theorem test_isMaxLen_bound :
    (isMaxLen false (some 14) (Session.start (flfsr 6#4))).toOption.map Prod.fst = some false ∧
    (isMaxLen false (some 15) (Session.start (flfsr 6#4))).toOption.map Prod.fst = some true := by decide
/-- B9. -/
theorem test_bitsToBytes : (bitsToBytes [0, 1, 1, 0, 0, 1, 0, 0, 0, 1, 1, 1, 1, 0, 1]).toOption =
    some [0x64#8, 0x7A#8] := by decide
/-- B13. -/
theorem test_bitsToBytes_refuses : bitsToBytes [1, 2, 0] = .error .notABit := by rfl
/-- R19, the FLFSR4's matrix read from the mask `1001`, R20. -/
theorem test_tapMask_fixed : tapMask 4 [3, 0] = 0b1001 := by decide

/-! ### Text of programs (R57), lines of P2, P3, P5 and G12 -/

theorem test_parse_lines :
    parseLine "set_taps [4,0]".toList = some (.command (.setTaps [4, 0])) ∧
    parseLine "reset 0b10000".toList = some (.command (.resetS 16)) ∧
    parseLine "reset".toList = some (.command .resetN) ∧
    parseLine "ismaxlen".toList = some (.ismaxlen none) := by decide
theorem test_parse_construct :
    parseConstruct "construct general size=16 taps=[5,3,2,0] seed=0xACE1".toList =
      some (.general { size := some 16, taps := some [5, 3, 2, 0], seed := some 44257 }) ∧
    parseConstruct "construct general seed=-1".toList =
      some (.general { size := none, taps := none, seed := some (-1) }) := by decide
theorem test_parse_program : parseProgram "construct fixed\nstate\ngenseq 15".toList =
    some { construct := .fixed, lines := [.command .state, .genseq 15] } := by decide
/-- P5 line 1: after a failed construction the next command is refused. -/
theorem test_run_after_failed_construction :
    runProgramWith (fun _ => false)
      { construct := .general { size := some 4, taps := none, seed := some 31 }, lines := [.command .state] } =
      .error .noInstance := by rfl

/-! ### Witnesses: each statement's hypotheses are met -/

theorem test_witness_FixedConstructionGivesItsConstants :
    ({ State.blank with script := [.constructFixed] } : State).script = .constructFixed :: [] := rfl

/-- A witness for each of the five clauses, at the boundaries `n = 0`, `v = -1`, `v = 2^n`, `t = n`, `t = n - 1`. -/
theorem test_witness_GeneralConstructionOutcomes :
    ((some (0 : Int)).getD 4 < 1) ∧
    (1 ≤ (some (4 : Int)).getD 4 ∧ (some (-1 : Int)).getD 6 < 0) ∧
    (1 ≤ (some (4 : Int)).getD 4 ∧ (2 : Int) ^ (4 : Int).toNat - 1 < (some (16 : Int)).getD 6) ∧
    (1 ≤ (some (4 : Int)).getD 4 ∧ (0 : Int) ≤ (some (15 : Int)).getD 6 ∧ (15 : Int) ≤ 2 ^ (4 : Int).toNat - 1 ∧
      ∃ t ∈ [(4 : Int), 0], t < 0 ∨ (4 : Int) - 1 < t) ∧
    (1 ≤ (none : Option Int).getD 4 ∧ (0 : Int) ≤ (none : Option Int).getD 6 ∧ (6 : Int) ≤ 2 ^ (4 : Int).toNat - 1 ∧
      ∀ t ∈ (none : Option (List Int)).getD [(4 : Int) - 1, 0], 0 ≤ t ∧ t ≤ (4 : Int) - 1) := by decide

theorem test_witness_GeneralConstructionThenStateSpellsSeed :
    let r : ConstructRecord := { size := some 1, taps := some [0], seed := some 1 }
    ({ State.blank with script := [.constructGeneral r] } : State).script = .constructGeneral r :: [] ∧
      (1 : Int) = r.size.getD 4 ∧ [(0 : Int)] = r.taps.getD [1 - 1, 0] ∧ (1 : Int) = r.seed.getD 6 ∧
      (1 : Int) ≤ 1 ∧ (0 : Int) ≤ 1 ∧ (1 : Int) ≤ 2 ^ (1 : Int).toNat - 1 ∧
      ∀ t ∈ [(0 : Int)], 0 ≤ t ∧ t ≤ (1 : Int) - 1 := by decide

theorem test_witness_FailedConstructionLeavesNoInstance :
    ∃ s', step { State.reset with script := [.constructGeneral ⟨some 4, none, some 31⟩] } = .next s' ∧
      s'.rsp = some (.error .invalidSeed) := ⟨_, rfl, rfl⟩

theorem test_witness_FixedStateReadsRegister : (flfsr 15#4).gen = some (.fixed ⟨15#4⟩) := rfl
theorem test_witness_FixedAdvanceShiftsAndFeedsBack : (flfsr 9#4).gen = some (.fixed ⟨9#4⟩) := rfl
theorem test_witness_FixedRefusesMutation : (flfsr 6#4).gen = some (.fixed ⟨6#4⟩) := rfl
theorem test_witness_FixedRunFromConstruction :
    (flfsr 6#4).gen = some (.fixed { reg := 0b0110#4 }) ∧ 16 ≤ 16 := ⟨rfl, le_refl _⟩
theorem test_witness_FixedReturnsAtMultiplesOfFifteen :
    (flfsr 1#4).gen = some (.fixed ⟨1#4⟩) ∧ (⟨1#4⟩ : Flfsr4).reg ≠ 0#4 := by decide
theorem test_witness_GeneralStateReadsRegister : (glfsr 1 [0, 0] 0).gen = some (.general ⟨1, [0, 0], 0⟩) := rfl
theorem test_witness_GeneralAdvanceShiftsAndFeedsBack :
    (glfsr 1 [0] 1).gen = some (.general ⟨1, [0], 1⟩) ∧ (⟨1, [0], 1⟩ : Glfsr).Legal := by decide

/-- Both clauses, at the taps `SIZE - 1`, `SIZE` and `-1`. -/
theorem test_witness_GeneralSetTapsReplacesOrRejects :
    (glfsr 4 [3, 0] 6).gen = some (.general ⟨4, [3, 0], 6⟩) ∧
      (∀ t ∈ [(3 : Int), 0, 3], 0 ≤ t ∧ t ≤ ((4 : Nat) : Int) - 1) ∧
      (∃ t ∈ [(4 : Int), 0], t < 0 ∨ ((4 : Nat) : Int) - 1 < t) ∧
      (∃ t ∈ [(-1 : Int)], t < 0 ∨ ((4 : Nat) : Int) - 1 < t) := by decide

/-- The three clauses, at the seeds 15, 16 and -1. -/
theorem test_witness_GeneralResetLoadsSeedOrRejects :
    (glfsr 4 [3, 0] 6).gen = some (.general ⟨4, [3, 0], 6⟩) ∧ ((0 : Int) ≤ 15 ∧ (15 : Int) ≤ 2 ^ 4 - 1) ∧
      ((2 : Int) ^ 4 - 1 < 16) ∧ ((-1 : Int) < 0) := by decide

theorem test_witness_GeneralResetWithoutSeedWritesNothing :
    (glfsr 4 [3, 0] 3).gen = some (.general ⟨4, [3, 0], 3⟩) := rfl
theorem test_witness_CommandsWriteOnlyTheirOwnState :
    State.reset.gen = some (.general ⟨4, [3, 0], 6⟩) ∧ ∃ s', exec .advance State.reset = .next s' := ⟨rfl, _, rfl⟩
theorem test_witness_ReadsAreRepeatable :
    (flfsr 6#4).gen = some (.fixed ⟨6#4⟩) ∧ ∃ g, Generator.general ⟨4, [3, 0], 3⟩ = .general g := ⟨rfl, _, rfl⟩
theorem test_witness_ErrorsLeaveNothingBehind :
    ∃ s', exec (.resetS 16) State.reset = .next s' ∧ s'.rsp = some (.error .invalidSeed) := ⟨_, rfl, rfl⟩
theorem test_witness_CommandsCompleteWithOneResponse :
    State.reset.gen = some (.general ⟨4, [3, 0], 6⟩) ∧ ∀ v, Instr.resetS 0 = .resetS v → 0 ≤ v :=
  ⟨rfl, fun _ h => by cases h; exact le_refl _⟩
theorem test_witness_NextStateStaysInRange : 1 ≤ 1 ∧ 1 < 2 ^ 1 := by decide
theorem test_witness_ZeroStateIsAFixedPoint :
    (glfsr 4 [3, 0] 0).gen = some (.general ⟨4, [3, 0], 0⟩) ∧ (Generator.general ⟨4, [3, 0], 0⟩).value = 0 ∧
      ∃ s' x', exec (.resetS 5) (glfsr 4 [3, 0] 0) = .next s' ∧ s'.gen = some x' ∧ x'.value ≠ 0 :=
  ⟨rfl, rfl, _, _, rfl, rfl, by decide⟩
theorem test_witness_FeedbackIsParityOfMaskedState : 15 < 2 ^ 4 ∧ ∀ t ∈ [(3 : Int), 3, 0], 0 ≤ t ∧ t < ((4 : Nat) : Int) := by
  decide
theorem test_witness_OnlyTheMaskMatters :
    6 < 2 ^ 4 ∧ (∀ t ∈ [(3 : Int), 3, 0], 0 ≤ t ∧ t < ((4 : Nat) : Int)) ∧
      (∀ t ∈ [(0 : Int)], 0 ≤ t ∧ t < ((4 : Nat) : Int)) ∧ tapMask 4 [3, 3, 0] = tapMask 4 [0] := by decide
theorem test_witness_AdvanceIsTheTapMatrix :
    1 ≤ 2 ∧ 3 < 2 ^ 2 ∧ ∀ t ∈ [(1 : Int), 0], 0 ≤ t ∧ t < ((2 : Nat) : Int) := by decide
theorem test_witness_StepIsBijectionIffTapZeroIsOdd :
    1 ≤ 4 ∧ ∀ t ∈ [(2 : Int), 1], 0 ≤ t ∧ t < ((4 : Nat) : Int) := by decide
theorem test_witness_OutputStreamObeysTheRecurrence :
    1 ≤ 3 ∧ 7 < 2 ^ 3 ∧ ∀ t ∈ [(2 : Int), 0], 0 ≤ t ∧ t < ((3 : Nat) : Int) := by decide
theorem test_witness_EmptyMaskDrainsTheRegister :
    1 ≤ 4 ∧ 5 < 2 ^ 4 ∧ (∀ t ∈ [(0 : Int), 0], 0 ≤ t ∧ t < ((4 : Nat) : Int)) ∧ tapMask 4 [0, 0] = 0 := by decide
theorem test_witness_GeneralPresetAgreesWithFixed :
    (flfsr 6#4).gen = some (.fixed { reg := 6#4 }) ∧
      (glfsr 4 [3, 0] 6).gen = some (.general { size := 4, taps := [3, 0], reg := (6#4).toNat }) ∧
      ∀ i ∈ [Instr.state, .advance], i = .state ∨ i = .advance := by decide
theorem test_witness_StepRunsTheDecodedCommand :
    (State.reset.presentNext (encode w84 (.resetS 15))).script = .present [encode w84 (.resetS 15)] :: [] ∧
      decode (encode w84 (.resetS 15)) = .ok (.resetS 15) := ⟨rfl, rfl⟩
theorem test_witness_NoCommandLeavesTheInstance :
    State.reset.script = [] ∧ ({ State.reset with script := [.present []] } : State).script = .present [] :: [] :=
  ⟨rfl, rfl⟩
/-- Equal commands and different ones; and a reserved opcode among them on a block with no instance. -/
theorem test_witness_SimultaneousCommandsAreRefused :
    let p := encode w84 .state
    let q := encode w84 .advance
    let z : CmdPorts := { p with op := 0#4 }
    p ≠ q ∧
    ({ State.reset with script := [.present [p, p]] } : State).script = .present (p :: p :: []) :: [] ∧
    ({ State.reset with script := [.present [p, q]] } : State).script = .present (p :: q :: []) :: [] ∧
    ({ State.blank with script := [.present [z, q, p]] } : State).script = .present (z :: q :: [p]) :: [] := by
  decide

/-- Both clauses, at the opcodes 0, 6, 15 and 1, 5. -/
theorem test_witness_ReservedOpcodesAreRefused :
    let p : CmdPorts := { op := 6#4, seedIn := [], tapsK := [], tapsIn := [] }
    (State.reset.presentNext p).script = .present [p] :: [] ∧
      ((0#4).toNat = 0 ∨ 6 ≤ (0#4).toNat) ∧ (p.op.toNat = 0 ∨ 6 ≤ p.op.toNat) ∧
      ((15#4).toNat = 0 ∨ 6 ≤ (15#4).toNat) ∧
      (1 ≤ (1#4).toNat ∧ (1#4).toNat ≤ 5) ∧ (1 ≤ (5#4).toNat ∧ (5#4).toNat ≤ 5) := by decide

theorem test_witness_OpcodesDecodeWithTheirOperands :
    let p : CmdPorts := { op := 0b0011#4, seedIn := [], tapsK := [true], tapsIn := [[true, true]] }
    p.op = 0b0011#4 ∧
      ((List.range p.tapsK.length).map fun i => (p.tapsK.getD i false).toNat * 2 ^ i).sum = p.tapsIn.length ∧
      (∀ b ∈ p.tapsIn, b ≠ []) ∧
      ((List.range 1).map fun i => ([false].getD i false).toNat * 2 ^ i).sum ≠ p.tapsIn.length := by decide
theorem test_witness_DecodeOfEncodeIsTheCommand : (Instr.setTaps [-128, 127, 0]).wellFormed w84 = true := by decide
theorem test_witness_EncodeOfDecodeIsTheOperandBlock :
    2 ≤ w84.opw ∧ (encode w84 (.setTaps [4, -1])).shaped w84 = true ∧
      decode (encode w84 (.setTaps [4, -1])) = .ok (.setTaps [4, -1]) := ⟨by decide, by decide, rfl⟩

/-- Both clauses: a legal list and one with a tap at `SIZE`. -/
theorem test_witness_NewTapsAreSeenByTheNextAdvance :
    decode (encode w84 (.setTaps [2, 1])) = .ok (.setTaps [2, 1]) ∧
      decode (encode w84 (.setTaps [4, 0])) = .ok (.setTaps [4, 0]) ∧
      decode (encode w84 .advance) = .ok .advance ∧
      (∀ t ∈ [(2 : Int), 1], 0 ≤ t ∧ t < ((4 : Nat) : Int)) ∧
      ¬ (∀ t ∈ [(4 : Int), 0], 0 ≤ t ∧ t < ((4 : Nat) : Int)) := ⟨rfl, rfl, rfl, by decide, by decide⟩
/-- A witness for each clause: `ADVANCE`, `STATE` on an FLFSR4; `ADVANCE`, `SET_TAPS`, `STATE`, `RESET.N`,
`RESET.S` on a GLFSR; an error. -/
theorem test_witness_ResponsePortsCarryTheValue :
    (Generator.fixed ⟨6#4⟩).Legal ∧ (⟨4, [3, 0], 6⟩ : Glfsr).Legal ∧
      seen (exec .advance (flfsr 6#4)) = some (some (.fixed ⟨3#4⟩), some (.ok (.bit false))) ∧
      seen (exec .state (flfsr 6#4)) = some (some (.fixed ⟨6#4⟩), some (.ok (.str ['0', '1', '1', '0']))) ∧
      seen (exec .advance State.reset) = some (some (.general ⟨4, [3, 0], 3⟩), some (.ok (.bit false))) ∧
      seen (exec (.setTaps [2]) State.reset) = some (some (.general ⟨4, [2], 6⟩), some (.ok (.taps [2]))) ∧
      seen (exec .state State.reset) =
        some (some (.general ⟨4, [3, 0], 6⟩), some (.ok (.str ['0', '1', '1', '0']))) ∧
      seen (exec .resetN State.reset) = some (some (.general ⟨4, [3, 0], 6⟩), some (.ok (.num 6))) ∧
      seen (exec (.resetS 15) State.reset) = some (some (.general ⟨4, [3, 0], 15⟩), some (.ok (.num 15))) ∧
      seen (exec (.resetS 16) State.reset) =
        some (some (.general ⟨4, [3, 0], 6⟩), some (.error .invalidSeed)) ∧
      (Response.ok (.num 6)).status = 0#2 ∧ (Response.error .invalidSeed).status ≠ 0#2 :=
  ⟨trivial, by decide, by decide, by decide, by decide, by decide, by decide, by decide, by decide, by decide,
    by decide, by decide⟩
theorem test_witness_NewTapsShowAfterSizeOutputs :
    (glfsr 4 [3, 0] 6).gen = some (.general ⟨4, [3, 0], 6⟩) ∧ (⟨4, [3, 0], 6⟩ : Glfsr).Legal ∧
      ∀ t ∈ [(2 : Int), 1], 0 ≤ t ∧ t < ((4 : Nat) : Int) := by decide
theorem test_witness_StepKeepsLegal : State.blank.Legal ∧ ∃ s', step State.blank = .next s' :=
  ⟨State.legal_of_gen_none rfl, _, rfl⟩
theorem test_witness_ReachableStatesAreInRange :
    ∃ s x, Reachable s ∧ s.gen = some x ∧ x.size = 8 :=
  ⟨_, _, .step (.start [.constructGeneral ⟨some 8, none, none⟩]) rfl, rfl, rfl⟩
theorem test_witness_FixedNeverReachesZero : ∃ s f, Reachable s ∧ s.gen = some (.fixed f) :=
  ⟨_, _, .step (.start [.constructFixed]) rfl, rfl⟩

/-- Both clauses, at the sizes 1 and 0. -/
theorem test_witness_MaxPeriodIsTwoToTheSizeLessOne : (1 : Int) ≤ 1 ∧ (0 : Int) < 1 := by decide
theorem test_witness_GenSeqCollectsTheOutputs :
    (Session.start (flfsr 6#4)).block.gen = some (.fixed ⟨6#4⟩) ∧
      (∃ as h1, genSeq 2 (Session.start (flfsr 6#4)) = .ok (as, h1) ∧ ∃ bs h2, genSeq 3 h1 = .ok (bs, h2)) ∧
      (-1 : Int) < 0 := ⟨rfl, ⟨_, _, rfl, _, _, rfl⟩, by decide⟩
theorem test_witness_OutputsLeaveLeastSignificantFirst :
    (glfsr 3 [2, 0] 7).gen = some (.general ⟨3, [2, 0], 7⟩) ∧ (⟨3, [2, 0], 7⟩ : Glfsr).Legal := by decide
theorem test_witness_IsMaxLenDefaultBound :
    (Session.start (glfsr 1 [0] 1)).block.gen = some (.general ⟨1, [0], 1⟩) ∧
      1 ≤ (Generator.general ⟨1, [0], 1⟩).size ∧ (-1 : Int) < 0 := by decide
theorem test_witness_IsMaxLenEndsWithinItsBound :
    (Session.start (glfsr 1 [] 1)).block.gen = some (.general ⟨1, [], 1⟩) ∧ (⟨1, [], 1⟩ : Glfsr).Legal := by decide
theorem test_witness_IsMaxLenVerdict :
    (Session.start (glfsr 2 [] 2)).block.gen = some (.general ⟨2, [], 2⟩) ∧ (⟨2, [], 2⟩ : Glfsr).Legal := by decide
theorem test_witness_IsMaxLenLeavesStartOrStop :
    ((Session.start (flfsr 6#4)).block.gen = some (.fixed ⟨6#4⟩) ∧ (Generator.fixed ⟨6#4⟩).Legal) ∧
      (Session.start (glfsr 2 [] 2)).block.gen = some (.general ⟨2, [], 2⟩) ∧ (⟨2, [], 2⟩ : Glfsr).Legal :=
  ⟨⟨rfl, trivial⟩, by decide⟩
theorem test_witness_IsMaxLenReturnsToStartWhenBijective :
    (Session.start (glfsr 2 [1, 0] 1)).block.gen = some (.general ⟨2, [1, 0], 1⟩) ∧
      (⟨2, [1, 0], 1⟩ : Glfsr).Legal ∧ 2 ≤ (Generator.general ⟨2, [1, 0], 1⟩).size ∧
      (Generator.general ⟨2, [1, 0], 1⟩).taps.count 0 % 2 = 1 := by decide

/-- The clauses of the laws: a multiple of 8, no multiple of 8, the last bit. -/
theorem test_witness_PackingLaws :
    (List.replicate 8 true).length % 8 = 0 ∧ [true, false, true].length % 8 ≠ 0 ∧ 2 < [true, false, true].length := by
  decide
theorem test_witness_PackedOutputsReverseTheRegister :
    (glfsr 8 [4, 3, 2, 0] 1).gen = some (.general ⟨8, [4, 3, 2, 0], 1⟩) ∧ (⟨8, [4, 3, 2, 0], 1⟩ : Glfsr).Legal ∧
      (⟨8, [4, 3, 2, 0], 1⟩ : Glfsr).size = 8 := by decide
theorem test_witness_InstancesAreIndependent :
    (0 : Nat) ≠ 1 ∧ ∃ σ1, System.issue 0 .advance [flfsr 6#4, glfsr 4 [3, 0] 6] = .next σ1 ∧
      ∃ σ2, System.issue 1 (.setTaps []) σ1 = .next σ2 := ⟨by decide, _, rfl, _, rfl⟩

end Sys2Proof.Tests
end

section
/-! The scope's statements (00_scope.md): every command of the variant is answered (R7, R51), and the General
LFSR at its preset simulates the Fixed one (R80). -/

namespace Sys2Proof.Machine

/-! ### Every command of the variant is answered -/

/-- The outcome is a next state on whose ports a response stands (R7, R51). -/
def Responds (a : Result) : Prop := ∃ s' r, a = .next s' ∧ s'.rsp = some r

theorem responds_answer (v : Value) (s : State) : Responds (answer v s) := ⟨_, _, rfl, rfl⟩

theorem responds_commit (x : Generator) (v : Value) (s : State) : Responds (commit x v s) := ⟨_, _, rfl, rfl⟩

theorem responds_raise (k : ErrorKind) (s : State) : Responds (raise k s) := ⟨_, _, rfl, rfl⟩

theorem responds_generalSetTaps (L : List Int) (s : State) (g : Glfsr) : Responds (generalSetTaps L s g) := by
  unfold generalSetTaps
  split
  · exact responds_commit _ _ _
  · exact responds_raise _ _

theorem responds_generalResetS {v : Int} (hv : 0 ≤ v) (s : State) (g : Glfsr) :
    Responds (generalResetS v s g) := by
  rw [generalResetS, if_neg (not_lt.2 hv)]
  split
  · exact responds_commit _ _ _
  · exact responds_raise _ _

theorem exec_fixed_responds {s : State} {f : Flfsr4} (h : s.gen = some (.fixed f)) {i : Instr}
    (hi : i = .state ∨ i = .advance) : Responds (exec i s) := by
  rcases hi with rfl | rfl
  · exact exec_state_fixed h ▸ responds_answer _ _
  · exact exec_advance_fixed h ▸ responds_commit _ _ _

theorem exec_general_responds {s : State} {g : Glfsr} (h : s.gen = some (.general g)) {i : Instr}
    (hi : ∀ v, i = .resetS v → 0 ≤ v) : Responds (exec i s) := by
  cases i with
  | state => exact exec_state_general h ▸ responds_answer _ _
  | advance => exact exec_advance_general h ▸ responds_commit _ _ _
  | setTaps L => exact exec_setTaps_general h L ▸ responds_generalSetTaps _ _ _
  | resetS v => exact exec_resetS_general h v ▸ responds_generalResetS (hi v rfl) _ _
  | resetN => exact exec_resetN_general h ▸ responds_answer _ _

/-- Settles O21, variant by variant: each operation that can end a command of the variant responds. -/
theorem commandsCompleteWithOneResponse : Obligations.CommandsCompleteWithOneResponse := by
  intro i s x hx hfixed hseed
  cases x with
  | fixed f => exact exec_fixed_responds hx (hfixed ⟨f, rfl⟩)
  | general g => exact exec_general_responds hx hseed

/-! ### The General LFSR at its preset simulates the Fixed one -/

/-- The General LFSR of width 4 and taps `[3, 0]` with the register of `f` (R80). -/
def Flfsr4.preset (f : Flfsr4) : Glfsr := { size := 4, taps := [3, 0], reg := f.reg.toNat }

/-- The simulation relation of R80: equal records, and the second block holds the preset of the first. -/
def PresetSim (hs ht : Session) : Prop :=
  hs.log = ht.log ∧ ∃ f, hs.block.gen = some (.fixed f) ∧ ht.block.gen = some (.general f.preset)

theorem exec_state_preset {t : State} {f : Flfsr4} (h : t.gen = some (.general f.preset)) :
    exec .state t = answer (.str f.string) t := by
  rw [exec_state_general h, Flfsr4.string_eq]
  rfl

/-- `ADVANCE` commutes with taking the preset. -/
theorem exec_advance_preset {t : State} {f : Flfsr4} (h : t.gen = some (.general f.preset)) :
    exec .advance t = commit (.general f.next.preset) (.bit f.outBit) t := by
  rw [exec_advance_general h, Flfsr4.outBit_eq, Flfsr4.preset, Flfsr4.preset, Flfsr4.next_toNat]

/-- A command that completes is issued with its response, which the record gains. -/
theorem issue_of_exec {i : Instr} {h : Session} {s' : State} {r : Response} (he : exec i h.block = .next s')
    (hr : s'.rsp = some r) : issue i h = .ok (r, { block := s', log := h.log ++ [(i, r)] }) := by
  simp only [issue, he, hr]

/-- One step of the simulation: the same response to both, and the relation again. -/
theorem PresetSim.exists_issue {hs ht : Session} (hsim : PresetSim hs ht) {i : Instr}
    (hi : i = .state ∨ i = .advance) :
    ∃ r hs' ht', issue i hs = .ok (r, hs') ∧ issue i ht = .ok (r, ht') ∧ PresetSim hs' ht' := by
  obtain ⟨hlog, f, hf, hg⟩ := hsim
  rcases hi with rfl | rfl
  · exact ⟨_, _, _, issue_of_exec (exec_state_fixed hf) rfl, issue_of_exec (exec_state_preset hg) rfl,
      by rw [hlog], f, hf, hg⟩
  · exact ⟨_, _, _, issue_of_exec (exec_advance_fixed hf) rfl, issue_of_exec (exec_advance_preset hg) rfl,
      by rw [hlog], f.next, rfl, rfl⟩

/-- A command line issues its command, and the lines after it run from there. -/
theorem runLines_command_cons {choice : Nat → Bool} {k : Nat} {i : Instr} {ls : List Line} {h h1 h2 : Session}
    {r : Response} {xs : List LineResult} (hi : issue i h = .ok (r, h1))
    (hls : runLines choice (k + 1) ls h1 = .ok (xs, h2)) :
    runLines choice k (.command i :: ls) h = .ok (.response r :: xs, h2) := by
  simp only [runLines, runLine, hi, hls]

/-- The simulation along a stream of commands, from any line number on. -/
theorem PresetSim.exists_runLines (choice : Nat → Bool) {is : List Instr} (his : ∀ i ∈ is, i = .state ∨ i = .advance)
    (k : Nat) {hs ht : Session} (hsim : PresetSim hs ht) :
    ∃ xs hs' ht', runLines choice k (is.map .command) hs = .ok (xs, hs') ∧
      runLines choice k (is.map .command) ht = .ok (xs, ht') ∧ xs.length = is.length ∧ PresetSim hs' ht' := by
  induction is generalizing k hs ht with
  | nil => exact ⟨[], hs, ht, rfl, rfl, rfl, hsim⟩
  | cons i is ih =>
    obtain ⟨hi, his⟩ := List.forall_mem_cons.1 his
    obtain ⟨r, hs1, ht1, es, et, hsim1⟩ := hsim.exists_issue hi
    obtain ⟨xs, hs2, ht2, rs, rt, hlen, hsim2⟩ := ih his (k + 1) hsim1
    exact ⟨.response r :: xs, hs2, ht2, runLines_command_cons es rs, runLines_command_cons et rt,
      by simp [hlen], hsim2⟩

/-- Settles O30: the two fresh sessions are related by `PresetSim`, which every stream keeps. -/
theorem generalPresetAgreesWithFixed : Obligations.GeneralPresetAgreesWithFixed := by
  intro s t r is choice hs ht his
  have hstart : PresetSim (Session.start s) (Session.start t) := ⟨rfl, ⟨r⟩, hs, ht⟩
  obtain ⟨xs, hs', ht', rs, rt, hlen, hlog, f, hf, hg⟩ := hstart.exists_runLines choice his 0
  exact ⟨xs, hs', ht', f.reg, rs, rt, hlen, hlog, hf, hg⟩

end Sys2Proof.Machine
end

section
/-! The state's statements (10_state.md): construction, who writes what, the invariants of R16, R21 and R22,
the tap mask and the tap matrix, and the independence of blocks. -/

namespace Sys2Proof.Machine

/-! ### Construction -/

theorem step_constructFixed {s : State} {rest : List HostEvent} (h : s.script = .constructFixed :: rest) :
    step s = powerOn constructFixed { s with script := rest } :=
  step_of_script_cons h

theorem step_constructGeneral {s : State} {r : ConstructRecord} {rest : List HostEvent}
    (h : s.script = .constructGeneral r :: rest) :
    step s = powerOn (constructGeneral r) { s with script := rest } :=
  step_of_script_cons h

theorem step_constructGeneral_made {s : State} {r : ConstructRecord} {rest : List HostEvent} {x : Generator}
    (hs : s.script = .constructGeneral r :: rest) (hx : constructGeneral r = .made x) :
    step s = .next { gen := some x, rsp := some (.ok .constructed), script := rest } := by
  rw [step_constructGeneral hs, hx]
  rfl

/-- `G.CONSTRUCT` makes a generator exactly of legal operands (R69), which are its three pieces of state (R29). -/
theorem constructWith_eq_made_iff {n v : Int} {L : List Int} {x : Generator} :
    constructWith n L v = .made x ↔
      1 ≤ n ∧ 0 ≤ v ∧ seedFits n.toNat v = true ∧ tapsValid n.toNat L = true ∧
        x = .general { size := n.toNat, taps := L, reg := v.toNat } := by
  refine ⟨constructWith_made, ?_⟩
  rintro ⟨hn, hv, hseed, htaps, rfl⟩
  simp [constructWith, not_lt.2 hn, not_lt.2 hv, hseed, htaps]

/-- The effective operands of a record (R56), defaults written out. -/
theorem constructGeneral_eq {r : ConstructRecord} {n v : Int} {L : List Int} (hn : n = r.size.getD 4)
    (hL : L = r.taps.getD [n - 1, 0]) (hv : v = r.seed.getD 6) : constructGeneral r = constructWith n L v := by
  subst hn hL hv
  rfl

/-- A seed that fits is in the register's range (R66, R21). -/
theorem toNat_lt_of_seedFits {n : Nat} {v : Int} (h : seedFits n v = true) : v.toNat < 2 ^ n := by
  have hv := seedFits_iff.1 h
  have hpos : 0 < 2 ^ n := Nat.two_pow_pos n
  have hcast : ((2 ^ n : Nat) : Int) = 2 ^ n := by push_cast; rfl
  omega

/-- Every character of a state string is a digit (R33). -/
theorem eq_digit_of_mem_stateString {n S : Nat} {c : Char} (h : c ∈ stateString n S) : c = '0' ∨ c = '1' := by
  obtain ⟨k, -, rfl⟩ := List.mem_map.1 h
  cases S.testBit (n - 1 - k) <;> simp [digit]

/-- The string `STATE` answers has `SIZE` digits, which spell a register in range (R33, R62, R70). -/
theorem exec_state_spells_value {s : State} {x : Generator} (hx : s.gen = some x) (hvalue : x.value < 2 ^ x.size) :
    ∃ cs, exec .state s = .next { s with rsp := some (.ok (.str cs)) } ∧
      cs.length = x.size ∧ stringValue cs = x.value ∧ ∀ c ∈ cs, c = '0' ∨ c = '1' :=
  ⟨stateString x.size x.value, exec_state hx, stateString_length _ _,
    by rw [stringValue_stateString, Nat.mod_eq_of_lt hvalue], fun _ => eq_digit_of_mem_stateString⟩

/-- Settles O2: the construction event replaces whatever generator there was. -/
theorem fixedConstructionGivesItsConstants : Obligations.FixedConstructionGivesItsConstants := by
  intro s rest hs
  exact ⟨_, step_constructFixed hs, rfl, rfl, rfl, rfl⟩

/-- Settles O4: legal operands make the generator (`constructWith_eq_made_iff`), whose register `STATE` spells. -/
theorem generalConstructionThenStateSpellsSeed : Obligations.GeneralConstructionThenStateSpellsSeed := by
  intro s r rest n v L hs hsize htaps hseed hn hv hfits hvalid
  have hnat : (n.toNat : Int) = n := Int.toNat_of_nonneg (by omega)
  have hmade : constructGeneral r = .made (.general { size := n.toNat, taps := L, reg := v.toNat }) :=
    (constructGeneral_eq hsize htaps hseed).trans <| constructWith_eq_made_iff.2
      ⟨hn, hv, seedFits_iff.2 hfits, tapsValid_iff.2 (by rwa [hnat]), rfl⟩
  obtain ⟨s', hstep, hgen⟩ : ∃ s', step s = .next s' ∧ s'.gen = some (.general ⟨n.toNat, L, v.toNat⟩) :=
    ⟨_, step_constructGeneral_made hs hmade, rfl⟩
  obtain ⟨cs, hexec, hlength, hspell, hdigits⟩ :=
    exec_state_spells_value hgen (toNat_lt_of_seedFits (seedFits_iff.2 hfits))
  exact ⟨s', _, cs, hstep, hgen, hnat, rfl, Int.toNat_of_nonneg hv, hexec, by rwa [hlength],
    hspell ▸ Int.toNat_of_nonneg hv, hdigits⟩

/-- Settles O5: a construction that goes on with an error is a failed one, which leaves no generator. -/
theorem failedConstructionLeavesNoInstance : Obligations.FailedConstructionLeavesNoInstance := by
  intro s s' r rest k hs hstep hrsp
  rw [step_constructGeneral hs] at hstep
  obtain ⟨x, -, rfl⟩ | ⟨j, -, rfl⟩ := powerOn_cases hstep
  · simp at hrsp
  · exact ⟨rfl, exec_noInstance rfl⟩

/-! ### Who writes what -/

/-- Replacing the value keeps the variant. -/
theorem Generator.withValue_eq_fixed_iff (x : Generator) (v : Nat) :
    (∃ f, x.withValue v = .fixed f) ↔ ∃ f, x = .fixed f := by
  cases x <;> simp [Generator.withValue]

/-- All that a command can write (R25): nothing, or the register by `ADVANCE`, or a valid tap list by `SET_TAPS`,
or a seed that fits by `RESET.S`; the script it keeps. -/
theorem exec_writes {i : Instr} {s s' : State} {x : Generator} (hx : s.gen = some x) (h : exec i s = .next s') :
    s'.script = s.script ∧
      (s'.gen = some x ∨
       (i = .advance ∧ s'.gen = some (x.withValue (nextReg x.size x.value x.taps))) ∨
       (∃ g L, x = .general g ∧ i = .setTaps L ∧ tapsValid g.size L = true ∧
         s'.gen = some (.general { g with taps := L })) ∨
       (∃ g v, x = .general g ∧ i = .resetS v ∧ 0 ≤ v ∧ seedFits g.size v = true ∧
         s'.gen = some (.general { g with reg := v.toNat }))) := by
  have hadvance : i = .advance →
      s'.script = s.script ∧ s'.gen = some (x.withValue (nextReg x.size x.value x.taps)) := by
    rintro rfl
    rw [exec_advance hx] at h
    cases h
    exact ⟨rfl, rfl⟩
  obtain ⟨f, -, -, rfl⟩ | ⟨f, -, hi, -⟩ | ⟨g, -, -, rfl⟩ | ⟨g, -, hi, -⟩ | ⟨g, L, hg, hi, hL, rfl⟩ |
    ⟨g, L, -, -, -, rfl⟩ | ⟨g, v, hg, hi, hv, hfit, rfl⟩ | ⟨g, v, -, -, -, -, rfl⟩ | ⟨g, -, -, rfl⟩ := exec_cases h
  · exact ⟨rfl, .inl hx⟩
  · exact ⟨(hadvance hi).1, .inr (.inl ⟨hi, (hadvance hi).2⟩)⟩
  · exact ⟨rfl, .inl hx⟩
  · exact ⟨(hadvance hi).1, .inr (.inl ⟨hi, (hadvance hi).2⟩)⟩
  · exact ⟨rfl, .inr (.inr (.inl ⟨g, L, Option.some.inj (hx.symm.trans hg), hi, hL, rfl⟩))⟩
  · exact ⟨rfl, .inl hx⟩
  · exact ⟨rfl, .inr (.inr (.inr ⟨g, v, Option.some.inj (hx.symm.trans hg), hi, hv, hfit, rfl⟩))⟩
  · exact ⟨rfl, .inl hx⟩
  · exact ⟨rfl, .inl hx⟩

/-- Settles O16: each of the four things a command can write is within its columns of the table of R25. -/
theorem commandsWriteOnlyTheirOwnState : Obligations.CommandsWriteOnlyTheirOwnState := by
  intro i s s' x hx h
  obtain ⟨hscript, hgen | ⟨hi, hgen⟩ | ⟨g, L, rfl, hi, -, hgen⟩ | ⟨g, v, rfl, hi, hv, -, hgen⟩⟩ := exec_writes hx h
  · exact ⟨x, hgen, hscript, rfl, .rfl, by simp, by simp⟩
  · exact ⟨_, hgen, hscript, by simp, (x.withValue_eq_fixed_iff _).symm, by simp, fun _ => ⟨by simp, .inl hi⟩⟩
  · exact ⟨_, hgen, hscript, rfl, by simp, fun _ => ⟨L, hi, rfl, rfl⟩, by simp⟩
  · exact ⟨_, hgen, hscript, rfl, by simp, by simp, fun _ => ⟨rfl, .inr ⟨v, hi, Int.toNat_of_nonneg hv⟩⟩⟩

/-! ### The invariants of R16, R21 and R22 -/

/-- The next state of a register in range is in range (R75). -/
theorem nextReg_lt {n S : Nat} (L : List Int) (hn : 1 ≤ n) (hS : S < 2 ^ n) : nextReg n S L < 2 ^ n := by
  refine Nat.lt_pow_two_of_testBit _ fun i hi => ?_
  rw [testBit_nextReg L hn hS, if_neg (by omega)]
  exact Nat.testBit_lt_two_pow (hS.trans_le (Nat.pow_le_pow_right two_pos (by omega)))

theorem tapsValid_iff_lt {n : Nat} {L : List Int} : tapsValid n L = true ↔ ∀ t ∈ L, 0 ≤ t ∧ t < (n : Int) := by
  simp [tapsValid_iff]

theorem Generator.Legal.advance {x : Generator} (h : x.Legal) :
    (x.withValue (nextReg x.size x.value x.taps)).Legal := by
  cases x with
  | fixed f => trivial
  | general g =>
    obtain ⟨hsize, hreg, htaps⟩ := h
    exact ⟨hsize, nextReg_lt _ hsize hreg, htaps⟩

theorem Glfsr.Legal.setTaps {g : Glfsr} {L : List Int} (h : g.Legal) (hL : tapsValid g.size L = true) :
    Glfsr.Legal { g with taps := L } :=
  ⟨h.1, h.2.1, tapsValid_iff_lt.1 hL⟩

theorem Glfsr.Legal.resetS {g : Glfsr} {v : Int} (h : g.Legal) (hv : seedFits g.size v = true) :
    Glfsr.Legal { g with reg := v.toNat } :=
  ⟨h.1, toNat_lt_of_seedFits hv, h.2.2⟩

theorem legal_of_constructWith {n v : Int} {L : List Int} {x : Generator} (h : constructWith n L v = .made x) :
    x.Legal := by
  obtain ⟨hn, -, hseed, htaps, rfl⟩ := constructWith_made h
  exact ⟨(by omega : 1 ≤ n.toNat), toNat_lt_of_seedFits hseed, tapsValid_iff_lt.1 htaps⟩

/-- Every command keeps the invariant: only three of the things it can write are new. -/
theorem exec_keeps_legal {i : Instr} {s s' : State} (hs : s.Legal) (h : exec i s = .next s') : s'.Legal := by
  cases hx : s.gen with
  | none => simp [exec_noInstance hx] at h
  | some x =>
    have hlegal : x.Legal := hs x hx
    obtain ⟨-, hgen | ⟨-, hgen⟩ | ⟨g, L, rfl, -, hL, hgen⟩ | ⟨g, v, rfl, -, -, hv, hgen⟩⟩ := exec_writes hx h
      <;> rw [State.legal_iff hgen]
    · exact hlegal
    · exact hlegal.advance
    · exact Glfsr.Legal.setTaps hlegal hL
    · exact Glfsr.Legal.resetS hlegal hv

/-- A construction event leaves a legal block, whatever the block was: a new generator, or none (R30). -/
theorem powerOn_legal {c : Construction} {s s' : State} (hc : c = constructFixed ∨ ∃ r, c = constructGeneral r)
    (h : powerOn c s = .next s') : s'.Legal := by
  obtain ⟨x, hmade, rfl⟩ | ⟨k, -, rfl⟩ := powerOn_cases h
  · refine (State.legal_iff rfl).2 ?_
    obtain rfl | ⟨r, rfl⟩ := hc
    · cases hmade
      trivial
    · exact legal_of_constructWith hmade
  · exact State.legal_of_gen_none rfl

/-- Settles O44: an idle step keeps the generator, a construction makes a legal one, a command keeps the invariant. -/
theorem stepKeepsLegal : Obligations.StepKeepsLegal := by
  intro s s' hs h
  obtain ⟨hgen, -⟩ | ⟨c, hc, rest, h⟩ | ⟨p, i, rest, -, -, h⟩ := step_cases h
  · exact (State.legal_congr hgen).2 hs
  · exact powerOn_legal hc h
  · exact exec_keeps_legal (s := { s with script := rest }) hs h

/-- The invariant holds of every state a host can bring a block to. -/
theorem Reachable.legal {s : State} (h : Reachable s) : s.Legal := by
  induction h with
  | start script => exact State.legal_of_gen_none rfl
  | step _ hstep ih => exact stepKeepsLegal _ _ ih hstep

/-- The ranges of a legal generator in the terms both variants share; an FLFSR4's are those of its type (R20). -/
theorem Generator.Legal.ranges {x : Generator} (h : x.Legal) :
    1 ≤ x.size ∧ x.value < 2 ^ x.size ∧ ∀ t ∈ x.taps, 0 ≤ t ∧ t < (x.size : Int) := by
  cases x with
  | fixed f => exact ⟨by simp, f.reg.isLt, by simp⟩
  | general g => exact h

/-- Settles O45: a reachable block is legal. -/
theorem reachableStatesAreInRange : Obligations.ReachableStatesAreInRange := by
  intro s x hs hx
  obtain ⟨hsize, hvalue, htaps⟩ := (hs.legal x hx).ranges
  exact ⟨hsize, Nat.le_sub_one_of_lt hvalue, fun t ht => ⟨(htaps t ht).1, Int.le_sub_one_of_lt (htaps t ht).2⟩⟩

/-! ### The tap mask and the tap matrix -/

theorem tapMask_lt (n : Nat) (L : List Int) : tapMask n L < 2 ^ n := by
  simpa [tapMask] using bitsToNat_lt ((List.range n).map (maskBit L))

/-- The parity of a masked state as an XOR over positions (R18). -/
theorem parity_and_tapMask (n S : Nat) (L : List Int) :
    parity n (S &&& tapMask n L) =
      (List.range n).foldr (fun p acc => xor (maskBit L p && S.testBit p) acc) false := by
  refine List.foldr_ext _ _ _ fun p hp acc => ?_
  rw [Nat.testBit_and, testBit_tapMask, decide_eq_true (List.mem_range.1 hp), Bool.true_and, Bool.and_comm]

/-- Settles O24: both sides are the XOR, over the positions, of mask bit and state bit. -/
theorem feedbackIsParityOfMaskedState : Obligations.FeedbackIsParityOfMaskedState := by
  intro n S L _ hL
  refine ⟨fun p hp => ?_, tapMask_lt n L, ?_⟩
  · rw [testBit_tapMask, decide_eq_true hp, Bool.true_and, maskBit]
  · rw [feedback_eq_foldr_mask hL, parity_and_tapMask]

/-- The dot product of two vectors given by their components, as an XOR over positions. -/
theorem dotGF2_map (f g : Nat → Bool) (l : List Nat) :
    dotGF2 (l.map f) (l.map g) = l.foldr (fun p acc => xor (f p && g p) acc) false := by
  induction l with
  | nil => rfl
  | cons a l ih => rw [List.map_cons, List.map_cons, dotGF2, ih, List.foldr_cons]

/-- A unit vector picks its component. -/
theorem foldr_xor_unit {n p : Nat} (f : Nat → Bool) (hp : p < n) :
    (List.range n).foldr (fun q acc => xor (decide (q = p) && f q) acc) false = f p := by
  have hterm : ∀ q, (decide (q = p) && f q) = (decide (q = p) && f p) := by
    intro q
    by_cases e : q = p <;> simp [e]
  simp only [hterm, foldr_xor_single n p (f p) hp]

/-- One advance as a matrix product: the last row is the mask and gives the feedback, every other row is a unit
vector and gives the bit above (R19). -/
theorem mulGF2_tapMatrix {n S : Nat} {L : List Int} (hn : 1 ≤ n) (hS : S < 2 ^ n)
    (hL : ∀ t ∈ L, 0 ≤ t ∧ t < (n : Int)) :
    mulGF2 (tapMatrix n L) (regBits n S) = regBits n (nextReg n S L) := by
  rw [mulGF2, tapMatrix, List.map_map]
  refine List.map_congr_left fun i hi => ?_
  have hi := List.mem_range.1 hi
  rw [Function.comp_apply, regBits, dotGF2_map, testBit_nextReg L hn hS]
  by_cases hlast : i + 1 = n
  · simp only [if_pos hlast, feedback_eq_foldr_mask hL]
  · simp only [if_neg hlast, foldr_xor_unit _ (show i + 1 < n by omega)]

theorem head?_regBits {n : Nat} (S : Nat) (hn : 1 ≤ n) : (regBits n S).head? = some (outBit S) := by
  simp [regBits, outBit, List.head?_range, Nat.one_le_iff_ne_zero.1 hn]

/-- Settles O26: `mulGF2_tapMatrix`, and the two matrices the rule writes out. -/
theorem advanceIsTheTapMatrix : Obligations.AdvanceIsTheTapMatrix :=
  ⟨fun _ S _ hn hS hL => ⟨mulGF2_tapMatrix hn hS hL, head?_regBits S hn⟩, fun _ => rfl, by decide⟩

/-! ### Several blocks -/

/-- A command to a block of a system completes exactly when it completes on that block, which alone it replaces. -/
theorem System.issue_eq_next {k : Nat} {i : Instr} {σ σ' : System} :
    System.issue k i σ = .next σ' ↔ ∃ s s', σ[k]? = some s ∧ exec i s = .next s' ∧ σ' = σ.set k s' := by
  unfold System.issue
  cases hk : σ[k]? with
  | none => simp
  | some s => cases he : exec i s <;> simp [he, eq_comm]

/-- Settles O59: each command reads and replaces its own block only, and writes to different places commute. -/
theorem instancesAreIndependent : Obligations.InstancesAreIndependent := by
  intro σ σ1 σ2 a b i j hab ha hb
  obtain ⟨s, s', hs, hexecA, rfl⟩ := System.issue_eq_next.1 ha
  obtain ⟨t, t', ht, hexecB, rfl⟩ := System.issue_eq_next.1 hb
  rw [List.getElem?_set_ne hab] at ht
  refine ⟨fun k hk => List.getElem?_set_ne hk.symm, List.length_set, σ.set b t', ?_, ?_⟩
  · exact System.issue_eq_next.2 ⟨t, t', ht, hexecB, rfl⟩
  · exact System.issue_eq_next.2 ⟨s, s', by rwa [List.getElem?_set_ne hab.symm], hexecA, List.set_comm _ _ hab⟩

end Sys2Proof.Machine
end

section
/-! The memory's statements (20_memory.md): what the next command sees of the last one's writes, the order in
which the outputs leave the register, their packing, the reads, and commands presented at once. -/

namespace Sys2Proof.Machine

/-! ### What the next command sees -/

theorem step_of_script_command {s : State} {p : CmdPorts} {i : Instr} {rest : List HostEvent}
    (hs : s.script = .present [p] :: rest) (hp : decode p = .ok i) : step s = exec i { s with script := rest } := by
  rw [step_of_script_cons hs, takeEvent, takeCommands, takeCommand, hp]

theorem exec_setTaps_of_valid {s : State} {g : Glfsr} {L : List Int} (hg : s.gen = some (.general g))
    (hL : tapsValid g.size L = true) : exec (.setTaps L) s = commit (.general { g with taps := L }) (.taps L) s := by
  rw [exec_setTaps_general hg, generalSetTaps, if_pos hL]

theorem exec_setTaps_of_invalid {s : State} {g : Glfsr} {L : List Int} (hg : s.gen = some (.general g))
    (hL : ¬ tapsValid g.size L = true) : exec (.setTaps L) s = raise .invalidTaps s := by
  rw [exec_setTaps_general hg, generalSetTaps, if_neg hL]

theorem step_advance_general {s : State} {g : Glfsr} {q : CmdPorts} {rest : List HostEvent}
    (hg : s.gen = some (.general g)) (hs : s.script = .present [q] :: rest) (hq : decode q = .ok .advance) :
    step s = .next { gen := some (.general { g with reg := nextReg g.size g.reg g.taps }),
                     rsp := some (.ok (.bit (outBit g.reg))), script := rest } :=
  (step_of_script_command hs hq).trans (exec_advance_general hg)

/-- Settles O39: the first step leaves the new list or the old one, and the second advances with what it finds. -/
theorem newTapsAreSeenByTheNextAdvance : Obligations.NewTapsAreSeenByTheNextAdvance := by
  intro s g p q L rest hg hs hp hq
  rw [step_of_script_command hs hp]
  by_cases hL : tapsValid g.size L = true
  · refine ⟨_, exec_setTaps_of_valid hg hL, fun _ => ?_, fun hbad => absurd (tapsValid_iff_lt.1 hL) hbad⟩
    exact step_advance_general (g := { g with taps := L }) rfl rfl hq
  · refine ⟨_, exec_setTaps_of_invalid hg hL, fun hgood => absurd (tapsValid_iff_lt.2 hgood) hL, fun _ => ?_⟩
    exact step_advance_general (s := { s with rsp := _, script := _ }) hg rfl hq

/-! ### The order of the outputs -/

section
variable {n S : Nat} (L : List Int) (hn : 1 ≤ n) (hS : S < 2 ^ n)
include hn hS

/-- Every state of a run is in range (R75, along R76). -/
theorem regAt_lt (t : Nat) : regAt n L S t < 2 ^ n := by
  induction t with
  | zero => exact hS
  | succ t ih => exact nextReg_lt L hn ih

/-- Until the feedback reaches it, a place holds the bit that stood `t` places above it. -/
theorem testBit_regAt {i t : Nat} (h : i + t < n) : (regAt n L S t).testBit i = S.testBit (i + t) := by
  induction t generalizing i with
  | zero => rfl
  | succ t ih =>
    rw [regAt, testBit_nextReg L hn (regAt_lt L hn hS t), if_neg (by omega), ih (by omega)]
    congr 1
    omega

/-- The first `n` outputs are the register's bits, bit 0 first (R34). -/
theorem outputAt_of_lt {t : Nat} (h : t < n) : outputAt n L S t = S.testBit t := by
  rw [outputAt, outBit, testBit_regAt L hn hS (by omega), Nat.zero_add]

/-- The feedback bit of advance `t` enters at the top and leaves `n` advances later (R34). -/
theorem outputAt_add_size (t : Nat) : outputAt n L S (t + n) = feedback (regAt n L S t) L := by
  have hsplit : t + n = (t + 1) + (n - 1) := by omega
  calc outputAt n L S (t + n)
      = outputAt n L (regAt n L S (t + 1)) (n - 1) := by rw [hsplit, outputAt, regAt_add, outputAt]
    _ = (regAt n L S (t + 1)).testBit (n - 1) := outputAt_of_lt L hn (regAt_lt L hn hS _) (by omega)
    _ = feedback (regAt n L S t) L := by
      rw [regAt, testBit_nextReg L hn (regAt_lt L hn hS t), if_pos (by omega)]

end

/-- `GENSEQ` on either variant collects the outputs (R83). -/
theorem genSeq_start_eq_outputs {s : State} {x : Generator} (hx : s.gen = some x) (k : Nat) :
    ∃ h, genSeq k (Session.start s) = .ok ((List.range k).map (outputAt x.size x.taps x.value), h) := by
  have hstart : (Session.start s).block.gen = some x := hx
  obtain ⟨h, hadv, -, -⟩ := advances_of_gen k hstart
  exact ⟨h, by rw [genSeq_of_gen k hstart, hadv]⟩

/-- Settles O49: `GENSEQ` collects the outputs, of which `outputAt_of_lt` and `outputAt_add_size` say the rest. -/
theorem outputsLeaveLeastSignificantFirst : Obligations.OutputsLeaveLeastSignificantFirst := by
  intro s x length hx hlegal
  obtain ⟨hsize, hvalue, -⟩ := hlegal.ranges
  obtain ⟨h, hseq⟩ := genSeq_start_eq_outputs hx length
  have hbit : ∀ j < length, ((List.range length).map (outputAt x.size x.taps x.value))[j]? =
      some (outputAt x.size x.taps x.value j) := by
    intro j hj
    rw [List.getElem?_map, List.getElem?_range hj, Option.map_some]
  refine ⟨_, h, hseq, hbit, fun j hj hlow => ?_, fun j hj => ?_⟩
  · rw [hbit j hj, outputAt_of_lt _ hsize hvalue hlow]
  · rw [hbit _ hj, outputAt_add_size _ hsize hvalue]

/-! ### Packing the outputs -/

/-- A byte of the packing is the number its bits carry, read from the last to the first (R89). -/
theorem packByte_eq_ofNat_bitsToNat (bits : List Bool) (j : Nat) :
    packByte bits j = BitVec.ofNat 8 (bitsToNat ((List.range 8).map fun i => bits.getD (8 * j + (7 - i)) false)) := by
  rw [packByte]
  congr 1
  simp only [List.range_succ, List.range_zero, List.nil_append, List.cons_append, List.map_cons, List.map_nil,
    List.sum_cons, List.sum_nil, bitsToNat, Nat.reduceSub]
  omega

theorem getLsbD_packByte (bits : List Bool) (j : Nat) {i : Nat} (hi : i < 8) :
    (packByte bits j).getLsbD i = bits.getD (8 * j + (7 - i)) false := by
  rw [packByte_eq_ofNat_bitsToNat, BitVec.getLsbD_ofNat, testBit_bitsToNat]
  simp [List.getD_eq_getElem?_getD, hi]

theorem padded_eq_self {bits : List Bool} (h : bits.length % 8 = 0) : padded bits = bits := by
  simp [padded, padCount, h]

theorem packBits_of_length_eq_eight {bits : List Bool} (h : bits.length = 8) : packBits bits = [packByte bits 0] := by
  rw [packBits, padded_eq_self (by rw [h]), h]
  rfl

/-- Settles O58: the first eight outputs are the register's bits, bit 0 first, and packing puts the first one
highest. -/
theorem packedOutputsReverseTheRegister : Obligations.PackedOutputsReverseTheRegister := by
  intro s g hg hlegal hsize
  obtain ⟨hpos, hreg, -⟩ := hlegal
  obtain ⟨h, hseq⟩ := genSeq_start_eq_outputs hg 8
  refine ⟨_, h, _, hseq, packBits_of_length_eq_eight (by simp), fun i hi => ?_⟩
  have hlow : 7 - i < 8 := by omega
  rw [getLsbD_packByte _ _ hi, List.getD_eq_getElem?_getD, Nat.mul_zero, Nat.zero_add, List.getElem?_map,
    List.getElem?_range hlow]
  exact outputAt_of_lt g.taps hpos hreg (hsize ▸ hlow)

/-! ### Reads -/

/-- A command that only answers leaves the instance, and issued again gives the same: it does not read the
response it left (R39). -/
theorem exec_again_of_answer {i : Instr} {s : State} {v : Value} (h : exec i s = answer v s) :
    ∃ s', exec i s = .next s' ∧ s'.gen = s.gen ∧ exec i s' = .next s' :=
  ⟨_, h, rfl, by rw [exec_setRsp, h, answer]⟩

/-- Settles O17: both commands only answer. -/
theorem readsAreRepeatable : Obligations.ReadsAreRepeatable := by
  intro s x hx
  refine ⟨exec_again_of_answer (exec_state hx), ?_⟩
  rintro ⟨g, rfl⟩
  exact exec_again_of_answer (exec_resetN_general hx)

/-! ### Commands presented at once -/

/-- Settles O33: an event with two commands or more is refused before any of them is decoded. -/
theorem simultaneousCommandsAreRefused : Obligations.SimultaneousCommandsAreRefused := by
  intro s p q ps rest hs
  rw [step_of_script_cons hs, takeEvent, takeCommands]

end Sys2Proof.Machine
end

section
/-! The encoding's statements (30_encoding.md): what the decoder reads from each opcode, the encoder as its inverse
on every bus, the reserved opcodes, and the commands an FLFSR4 does not have. -/

namespace Sys2Proof

/-! ### What a bus of given widths carries -/

section
variable {w : Widths}

theorem Widths.carriesSeed_iff {v : Int} : w.carriesSeed v = true ↔ 0 ≤ v ∧ v < 2 ^ w.opw := by
  simp [Widths.carriesSeed]

theorem Widths.carriesTap_iff {t : Int} :
    w.carriesTap t = true ↔ 2 ≤ w.opw ∧ -(2 ^ (w.opw - 1)) ≤ t ∧ t < 2 ^ (w.opw - 1) := by
  simp [Widths.carriesTap, and_assoc]

theorem Widths.carriesTaps_iff {L : List Int} :
    w.carriesTaps L = true ↔ L.length < 2 ^ w.kw ∧ ∀ t ∈ L, w.carriesTap t = true := by
  simp [Widths.carriesTaps]

theorem CmdPorts.shaped_iff {p : CmdPorts} : p.shaped w = true ↔
    p.seedIn.length = w.opw ∧ p.tapsK.length = w.kw ∧ ∀ b ∈ p.tapsIn, b.length = w.opw := by
  simp [CmdPorts.shaped, and_assoc]

theorem quietPorts_shaped (op : Nibble) : (quietPorts w op).shaped w = true := by
  simp [CmdPorts.shaped_iff, quietPorts]

/-- The encoder makes ports of the bus's widths, even from an operand that the bus cannot carry. -/
theorem encode_shaped (i : Instr) : (encode w i).shaped w = true := by
  cases i with
  | state => exact quietPorts_shaped _
  | advance => exact quietPorts_shaped _
  | setTaps L => simp [CmdPorts.shaped_iff, encode, quietPorts, intToBits]
  | resetS v => simp [CmdPorts.shaped_iff, encode, quietPorts]
  | resetN => exact quietPorts_shaped _

end

/-! ### The decoder, opcode by opcode -/

theorem reservedOp_iff {op : Nibble} : reservedOp op = true ↔ op.toNat = 0 ∨ 6 ≤ op.toNat := by
  simp [reservedOp]

/-- An opcode is one of the five of R47 or reserved (R52). -/
theorem opcode_cases (op : Nibble) : op = 0b0001#4 ∨ op = 0b0010#4 ∨ op = 0b0011#4 ∨ op = 0b0100#4 ∨
    op = 0b0101#4 ∨ reservedOp op = true := by
  decide +revert

section
variable {p : CmdPorts}

theorem decode_of_op_state (h : p.op = 0b0001#4) : decode p = .ok .state := by
  simp [decode, h]

theorem decode_of_op_advance (h : p.op = 0b0010#4) : decode p = .ok .advance := by
  simp [decode, h]

theorem decode_of_op_setTaps (h : p.op = 0b0011#4) (hK : bitsToNat p.tapsK = p.tapsIn.length) :
    decode p = .ok (.setTaps (p.tapsIn.map bitsToInt)) := by
  simp [decode, h, hK]

theorem decode_of_tapCount_ne (h : p.op = 0b0011#4) (hK : bitsToNat p.tapsK ≠ p.tapsIn.length) :
    decode p = .error .tapCountMismatch := by
  simp [decode, h, hK]

theorem decode_of_op_resetS (h : p.op = 0b0100#4) : decode p = .ok (.resetS (bitsToNat p.seedIn)) := by
  simp [decode, h]

theorem decode_of_op_resetN (h : p.op = 0b0101#4) : decode p = .ok .resetN := by
  simp [decode, h]

theorem decode_of_reservedOp (h : reservedOp p.op = true) : decode p = .error (.reservedOpcode p.op) := by
  rw [reservedOp_iff] at h
  rw [decode]
  split
  case h_6 => rfl
  all_goals omega

end

/-- Everything the decoder can answer, with the opcode that makes it answer so. -/
theorem decode_cases (p : CmdPorts) :
    (p.op = 0b0001#4 ∧ decode p = .ok .state) ∨
    (p.op = 0b0010#4 ∧ decode p = .ok .advance) ∨
    (p.op = 0b0011#4 ∧ bitsToNat p.tapsK = p.tapsIn.length ∧
      decode p = .ok (.setTaps (p.tapsIn.map bitsToInt))) ∨
    (p.op = 0b0011#4 ∧ bitsToNat p.tapsK ≠ p.tapsIn.length ∧ decode p = .error .tapCountMismatch) ∨
    (p.op = 0b0100#4 ∧ decode p = .ok (.resetS (bitsToNat p.seedIn))) ∨
    (p.op = 0b0101#4 ∧ decode p = .ok .resetN) ∨
    (reservedOp p.op = true ∧ decode p = .error (.reservedOpcode p.op)) := by
  obtain h | h | h | h | h | h := opcode_cases p.op
  · exact .inl ⟨h, decode_of_op_state h⟩
  · exact .inr (.inl ⟨h, decode_of_op_advance h⟩)
  · by_cases hK : bitsToNat p.tapsK = p.tapsIn.length
    · exact .inr (.inr (.inl ⟨h, hK, decode_of_op_setTaps h hK⟩))
    · exact .inr (.inr (.inr (.inl ⟨h, hK, decode_of_tapCount_ne h hK⟩)))
  · exact .inr (.inr (.inr (.inr (.inl ⟨h, decode_of_op_resetS h⟩))))
  · exact .inr (.inr (.inr (.inr (.inr (.inl ⟨h, decode_of_op_resetN h⟩)))))
  · exact .inr (.inr (.inr (.inr (.inr (.inr ⟨h, decode_of_reservedOp h⟩)))))

theorem reservedOp_of_decode {p : CmdPorts} {op : Nibble} (h : decode p = .error (.reservedOpcode op)) :
    reservedOp p.op = true := by
  obtain ⟨-, hd⟩ | ⟨-, hd⟩ | ⟨-, -, hd⟩ | ⟨-, -, hd⟩ | ⟨-, hd⟩ | ⟨-, hd⟩ | ⟨hop, -⟩ := decode_cases p
  case inr.inr.inr.inr.inr.inr => exact hop
  all_goals cases hd.symm.trans h

/-! ### Decoding what was encoded -/

/-- Every entry of a carried list comes back, in list order (R49). -/
theorem map_bitsToInt_map_intToBits {w : Widths} {L : List Int} (h : ∀ t ∈ L, w.carriesTap t = true) :
    (L.map (intToBits w.opw)).map bitsToInt = L := by
  rw [List.map_map]
  refine (List.map_congr_left fun t ht => ?_).trans (List.map_id L)
  obtain ⟨hopw, hlo, hhi⟩ := Widths.carriesTap_iff.1 (h t ht)
  exact bitsToInt_intToBits w.opw t (by omega) hlo hhi

theorem decode_encode_setTaps {w : Widths} {L : List Int} (h : w.carriesTaps L = true) :
    decode (encode w (.setTaps L)) = .ok (.setTaps L) := by
  obtain ⟨hcount, htaps⟩ := Widths.carriesTaps_iff.1 h
  have hK : bitsToNat (natToBits w.kw L.length) = (L.map (intToBits w.opw)).length := by
    rw [bitsToNat_natToBits, Nat.mod_eq_of_lt hcount, List.length_map]
  rw [decode_of_op_setTaps rfl hK]
  exact congrArg (Except.ok ∘ Instr.setTaps) (map_bitsToInt_map_intToBits htaps)

theorem decode_encode_resetS {w : Widths} {v : Int} (h : w.carriesSeed v = true) :
    decode (encode w (.resetS v)) = .ok (.resetS v) := by
  obtain ⟨hnonneg, hlt⟩ := Widths.carriesSeed_iff.1 h
  have hv : v.toNat < 2 ^ w.opw := by
    zify
    omega
  have hseed : ((bitsToNat (natToBits w.opw v.toNat) : Nat) : Int) = v := by
    rw [bitsToNat_natToBits, Nat.mod_eq_of_lt hv, Int.toNat_of_nonneg hnonneg]
  rw [decode_of_op_resetS rfl]
  exact congrArg (Except.ok ∘ Instr.resetS) hseed

/-- Settles O36, command by command: the two commands with an operand by `decode_encode_setTaps` and
`decode_encode_resetS`, the others by their opcode alone. -/
theorem decodeOfEncodeIsTheCommand : Obligations.DecodeOfEncodeIsTheCommand := by
  intro w i hwf
  refine ⟨?_, encode_shaped i⟩
  cases i with
  | state => exact decode_of_op_state rfl
  | advance => exact decode_of_op_advance rfl
  | setTaps L => exact decode_encode_setTaps hwf
  | resetS v => exact decode_encode_resetS hwf
  | resetN => exact decode_of_op_resetN rfl

/-! ### Encoding what was decoded -/

section
variable {w : Widths}

theorem carriesSeed_bitsToNat {bs : Bits} (h : bs.length = w.opw) : w.carriesSeed (bitsToNat bs) = true := by
  have hlt := bitsToNat_lt bs
  rw [h] at hlt
  exact Widths.carriesSeed_iff.2 ⟨Int.natCast_nonneg _, by exact_mod_cast hlt⟩

theorem carriesTap_bitsToInt (hopw : 2 ≤ w.opw) {b : Bits} (h : b.length = w.opw) :
    w.carriesTap (bitsToInt b) = true := by
  have hrange := bitsToInt_range b (List.ne_nil_of_length_pos (by omega))
  rw [h] at hrange
  exact Widths.carriesTap_iff.2 ⟨hopw, hrange⟩

theorem carriesTaps_map_bitsToInt (hopw : 2 ≤ w.opw) {K : Bits} {bs : List Bits} (hK : K.length = w.kw)
    (hcount : bitsToNat K = bs.length) (hbs : ∀ b ∈ bs, b.length = w.opw) :
    w.carriesTaps (bs.map bitsToInt) = true := by
  refine Widths.carriesTaps_iff.2 ⟨?_, List.forall_mem_map.2 fun b hb => carriesTap_bitsToInt hopw (hbs b hb)⟩
  rw [List.length_map, ← hcount, ← hK]
  exact bitsToNat_lt K

theorem natToBits_bitsToNat_of_length {n : Nat} {bs : Bits} (h : bs.length = n) : natToBits n (bitsToNat bs) = bs :=
  h ▸ natToBits_bitsToNat bs

theorem map_intToBits_map_bitsToInt {n : Nat} {bs : List Bits} (h : ∀ b ∈ bs, b.length = n) :
    (bs.map bitsToInt).map (intToBits n) = bs := by
  rw [List.map_map]
  refine (List.map_congr_left fun b hb => ?_).trans (List.map_id bs)
  exact h b hb ▸ intToBits_bitsToInt b

end

/-- Settles O37, along `decode_cases`: the commands without an operand have only their opcode to give back, and the
two rejections decode to no command. -/
theorem encodeOfDecodeIsTheOperandBlock : Obligations.EncodeOfDecodeIsTheOperandBlock := by
  intro w p i hopw hshaped hdecode
  obtain ⟨hseed, hK, htaps⟩ := CmdPorts.shaped_iff.1 hshaped
  obtain ⟨hop, hd⟩ | ⟨hop, hd⟩ | ⟨hop, hcount, hd⟩ | ⟨-, -, hd⟩ | ⟨hop, hd⟩ | ⟨hop, hd⟩ | ⟨-, hd⟩ :=
    decode_cases p <;> cases hd.symm.trans hdecode
  · exact ⟨rfl, hop.symm, by simp, by simp⟩
  · exact ⟨rfl, hop.symm, by simp, by simp⟩
  · refine ⟨carriesTaps_map_bitsToInt hopw hK hcount htaps, hop.symm, by simp,
      fun _ => ⟨?_, map_intToBits_map_bitsToInt htaps⟩⟩
    calc natToBits w.kw (p.tapsIn.map bitsToInt).length
        = natToBits w.kw (bitsToNat p.tapsK) := by rw [List.length_map, hcount]
      _ = p.tapsK := natToBits_bitsToNat_of_length hK
  · exact ⟨carriesSeed_bitsToNat hseed, hop.symm, fun _ => natToBits_bitsToNat_of_length hseed, by simp⟩
  · exact ⟨rfl, hop.symm, by simp, by simp⟩

/-! ### The operands as the rules weigh their wires -/

/-- The two's complement value as R49 writes it: the last of `n + 1` wires weighs `-2^n`, the others as in R48. -/
theorem bitsToInt_eq_sum {b : Bits} (h : b ≠ []) : bitsToInt b =
    ((((List.range (b.length - 1)).map fun i => (b.getD i false).toNat * 2 ^ i).sum : Nat) : Int)
      - ((b.getD (b.length - 1) false).toNat * 2 ^ (b.length - 1) : Nat) := by
  obtain ⟨n, hn⟩ : ∃ n, b.length = n + 1 := Nat.exists_eq_succ_of_ne_zero (List.length_pos_iff.2 h).ne'
  have htop : b.getLastD false = b.getD n false := by
    rw [List.getLastD_eq_getLast?, List.getLast?_eq_getElem?, hn, List.getD_eq_getElem?_getD,
      Nat.add_sub_cancel]
  rw [bitsToInt, htop, bitsToNat_eq_sum, hn, Nat.add_sub_cancel, List.sum_range_succ]
  cases b.getD n false
  · simp
  · simp [pow_succ]
    ring

/-- Settles O35: the decoder's equations, the bundles' values written as the sums of R48 and R49. -/
theorem opcodesDecodeWithTheirOperands : Obligations.OpcodesDecodeWithTheirOperands := by
  intro p
  refine ⟨decode_of_op_state, decode_of_op_advance, decode_of_op_resetN, fun hop => ?_,
    fun hop hcount hne => ?_, fun hop hcount => ?_⟩
  · rw [decode_of_op_resetS hop, bitsToNat_eq_sum]
  · rw [← bitsToNat_eq_sum] at hcount
    rw [decode_of_op_setTaps hop hcount, List.map_congr_left fun b hb => bitsToInt_eq_sum (hne b hb)]
  · rw [← bitsToNat_eq_sum] at hcount
    exact decode_of_tapCount_ne hop hcount

end Sys2Proof

namespace Sys2Proof.Machine

/-! ### What is refused -/

theorem step_of_script_rejected {s : State} {p : CmdPorts} {e : DecodeError} {rest : List HostEvent}
    (hs : s.script = .present [p] :: rest) (hp : decode p = .error e) : step s = .refused (decodeRefusal e) := by
  rw [step_of_script_cons hs, takeEvent, takeCommands, takeCommand, hp]

/-- Settles O34: the decoder answers `reservedOpcode` for the reserved opcodes and for no other, and the step
refuses what it rejects. -/
theorem reservedOpcodesAreRefused : Obligations.ReservedOpcodesAreRefused := by
  intro s p rest hs
  refine ⟨fun hop => ?_, fun hop op hd => ?_⟩
  · exact step_of_script_rejected hs (decode_of_reservedOp (reservedOp_iff.2 hop))
  · have hreserved := reservedOp_iff.1 (reservedOp_of_decode hd)
    omega

/-- Settles O8: the three commands on an FLFSR4. -/
theorem fixedRefusesMutation : Obligations.FixedRefusesMutation := by
  intro s f L v hf
  exact ⟨exec_setTaps_fixed hf L, exec_resetS_fixed hf v, exec_resetN_fixed hf⟩

end Sys2Proof.Machine
end

section
/-! The Fixed LFSR's statements (40_fixed_lfsr.md): what its two commands read and write (R62, R63), the runs from
construction and from any non-zero state (R65), and the register that never reaches 0 (R115). -/

namespace Sys2Proof.Machine

/-! ### One command -/

/-- Every bit of the next register (R63). -/
theorem Flfsr4.getLsbD_next (f : Flfsr4) (i : Nat) :
    f.next.reg.getLsbD i = if i = 3 then xor (f.reg.getLsbD 3) (f.reg.getLsbD 0) else f.reg.getLsbD (i + 1) := by
  have hfeedback : feedback f.reg.toNat [3, 0] = xor (f.reg.getLsbD 3) (f.reg.getLsbD 0) := by
    rw [feedback_cons, feedback_cons, feedback_nil, Bool.xor_false]
    rfl
  rw [← BitVec.testBit_toNat, f.next_toNat, testBit_nextReg _ (by decide) f.reg.isLt, hfeedback]
  simp [BitVec.testBit_toNat]

/-- Settles O6: the state string of width 4. -/
theorem fixedStateReadsRegister : Obligations.FixedStateReadsRegister := by
  intro s f hf
  refine ⟨_, exec_state hf, stateString_length _ _, fun k hk => ?_⟩
  rw [Generator.size_fixed, Generator.value_fixed, stateString_getElem? hk, BitVec.testBit_toNat]
  rfl

/-- Settles O7: the four bits of the next register. -/
theorem fixedAdvanceShiftsAndFeedsBack : Obligations.FixedAdvanceShiftsAndFeedsBack := by
  intro s f hf
  exact ⟨f.next.reg, exec_advance_fixed hf, f.getLsbD_next 0, f.getLsbD_next 1, f.getLsbD_next 2, f.getLsbD_next 3⟩

/-! ### Successive advances -/

/-- The register after `k` advances, in the General LFSR's terms (R80, R76). -/
theorem Flfsr4.iterate_next_toNat (f : Flfsr4) (k : Nat) :
    (Flfsr4.next^[k] f).reg.toNat = regAt 4 [3, 0] f.reg.toNat k := by
  induction k with
  | zero => rfl
  | succ k ih => rw [Function.iterate_succ_apply', Flfsr4.next_toNat, ih, regAt]

theorem Generator.withValue_fixed_toNat (f f' : Flfsr4) : (Generator.fixed f).withValue f'.reg.toNat = .fixed f' := by
  simp [Generator.withValue]

/-- `GENSEQ` on an FLFSR4: the outputs, and the register of as many advances (R83). -/
theorem genSeq_fixed {s : State} {f : Flfsr4} (hf : s.gen = some (.fixed f)) (k : Nat) :
    ∃ h, genSeq k (Session.start s) = .ok ((List.range k).map (outputAt 4 [3, 0] f.reg.toNat), h) ∧
      h.block.gen = some (.fixed (Flfsr4.next^[k] f)) := by
  have hstart : (Session.start s).block.gen = some (.fixed f) := hf
  obtain ⟨h, hadv, hgen, -⟩ := advances_of_gen k hstart
  refine ⟨h, (genSeq_of_gen k hstart).trans hadv, ?_⟩
  rw [hgen, Generator.size_fixed, Generator.taps_fixed, Generator.value_fixed, ← Flfsr4.iterate_next_toNat,
    Generator.withValue_fixed_toNat]

/-- Settles O9: the sixteen outputs of the table, of which a shorter run gives the first, and the table's states. -/
theorem fixedRunFromConstruction : Obligations.FixedRunFromConstruction := by
  intro s k hs hk
  have houtputs : (List.range 16).map (outputAt 4 [3, 0] 0b0110) =
      [false, true, true, false, false, true, false, false, false, true, true, true, true, false, true, false] := by
    decide
  have hstates : ∀ k ≤ 16, Flfsr4.next^[k] ⟨0b0110#4⟩ =
      ⟨[0b0110#4, 0b0011#4, 0b1001#4, 0b0100#4, 0b0010#4, 0b0001#4, 0b1000#4, 0b1100#4, 0b1110#4, 0b1111#4,
        0b0111#4, 0b1011#4, 0b0101#4, 0b1010#4, 0b1101#4, 0b0110#4, 0b0011#4].getD k 0#4⟩ := by
    decide
  obtain ⟨h, hseq, hgen⟩ := genSeq_fixed hs k
  refine ⟨h, ?_, by rw [hgen, hstates k hk]⟩
  rw [hseq, ← houtputs, ← List.map_take, List.take_range, Nat.min_eq_left hk]
  rfl

/-- The 15 non-zero states form one cycle (R65). -/
theorem Flfsr4.minimalPeriod_next {f : Flfsr4} (hf : f.reg ≠ 0#4) : Function.minimalPeriod Flfsr4.next f = 15 := by
  have hback : ∀ r : Nibble, Flfsr4.next^[15] ⟨r⟩ = ⟨r⟩ := by decide
  have hnotBefore : ∀ r : Nibble, r ≠ 0#4 → ∀ j < 15, 0 < j → Flfsr4.next^[j] ⟨r⟩ ≠ ⟨r⟩ := by decide
  have hperiodic : Function.IsPeriodicPt Flfsr4.next 15 f := hback f.reg
  refine le_antisymm (hperiodic.minimalPeriod_le (by decide)) (not_lt.1 fun hlt => ?_)
  exact hnotBefore f.reg hf _ hlt (hperiodic.minimalPeriod_pos (by decide))
    (Function.isPeriodicPt_minimalPeriod Flfsr4.next f)

/-- Settles O10: `k` advances lead back exactly when the period of the cycle divides `k`. -/
theorem fixedReturnsAtMultiplesOfFifteen : Obligations.FixedReturnsAtMultiplesOfFifteen := by
  intro s f k hf hreg
  obtain ⟨h, hseq, hgen⟩ := genSeq_fixed hf k
  refine ⟨_, h, hseq, ?_⟩
  calc h.block.gen = s.gen
      ↔ Function.IsPeriodicPt Flfsr4.next k f := by
        rw [hgen, hf, Option.some_inj, Generator.fixed.injEq]
        rfl
    _ ↔ 15 ∣ k := by rw [Function.isPeriodicPt_iff_minimalPeriod_dvd, Flfsr4.minimalPeriod_next hreg]

/-! ### The register never reaches 0 -/

theorem Flfsr4.next_ne_zero {f : Flfsr4} (hf : f.reg ≠ 0#4) : f.next.reg ≠ 0#4 := by
  have hall : ∀ r : Nibble, r ≠ 0#4 → (Flfsr4.next ⟨r⟩).reg ≠ 0#4 := by decide
  exact hall f.reg hf

/-- The FLFSR4 that a command leaves was there before it, or is one advance on from the one that was. -/
theorem exec_gen_fixed {i : Instr} {s s' : State} {f' : Flfsr4} (h : exec i s = .next s')
    (hf' : s'.gen = some (.fixed f')) :
    s.gen = some (.fixed f') ∨ ∃ f, s.gen = some (.fixed f) ∧ f' = f.next := by
  obtain hx | ⟨f, hf⟩ | ⟨g, hg⟩ := s.gen_cases
  · simp [exec_noInstance hx] at h
  · obtain ⟨-, hgen | ⟨rfl, -⟩ | ⟨g, L, hg, -⟩ | ⟨g, v, hg, -⟩⟩ := exec_writes hf h
    · exact .inl (by rw [hf, ← hgen, hf'])
    · rw [exec_advance_fixed hf, commit_eq_next] at h
      subst h
      cases hf'
      exact .inr ⟨f, hf, rfl⟩
    · cases hg
    · cases hg
  · obtain ⟨-, hgen | ⟨-, hgen⟩ | ⟨g, L, -, -, -, hgen⟩ | ⟨g, v, -, -, -, -, hgen⟩⟩ := exec_writes hg h
      <;> cases hgen.symm.trans hf'

/-- The FLFSR4 that a construction event leaves is the one of R61: `G.CONSTRUCT` makes none. -/
theorem powerOn_gen_fixed {c : Construction} {s s' : State} {f : Flfsr4}
    (hc : c = constructFixed ∨ ∃ r, c = constructGeneral r) (h : powerOn c s = .next s')
    (hf : s'.gen = some (.fixed f)) : f = Flfsr4.construct := by
  obtain ⟨x, hmade, rfl⟩ | ⟨k, -, rfl⟩ := powerOn_cases h
  · cases hf
    obtain rfl | ⟨r, rfl⟩ := hc
    · cases hmade
      rfl
    · obtain ⟨-, -, -, -, hx⟩ := constructWith_made hmade
      cases hx
  · cases hf

/-- Where the FLFSR4 after a step comes from: it was there, or was just made, or is one advance on. -/
theorem step_gen_fixed {s s' : State} {f' : Flfsr4} (h : step s = .next s') (hf' : s'.gen = some (.fixed f')) :
    s.gen = some (.fixed f') ∨ f' = Flfsr4.construct ∨ ∃ f, s.gen = some (.fixed f) ∧ f' = f.next := by
  obtain ⟨hgen, -⟩ | ⟨c, hc, rest, h⟩ | ⟨p, i, rest, -, -, h⟩ := step_cases h
  · exact .inl (hgen ▸ hf')
  · exact .inr (.inl (powerOn_gen_fixed hc h hf'))
  · exact (exec_gen_fixed h hf').imp_right .inr

/-- Settles O46, by induction on the steps: construction makes a non-zero register and `ADVANCE` keeps it so. -/
theorem fixedNeverReachesZero : Obligations.FixedNeverReachesZero := by
  intro s f' hs hf'
  induction hs generalizing f' with
  | start script => cases hf'
  | step _ hstep ih =>
    obtain hf | rfl | ⟨f, hf, rfl⟩ := step_gen_fixed hstep hf'
    · exact ih _ hf
    · decide
    · exact Flfsr4.next_ne_zero (ih f hf)

end Sys2Proof.Machine
end

section
/-! The General LFSR's statements (41_general_lfsr.md): the outcomes of construction (R69), the five commands (R70
to R74), and the laws of the next state and of the output stream (R75 to R79). -/

namespace Sys2Proof.Machine

/-! ### Construction -/

theorem constructWith_of_size_lt_one {n : Int} (hn : n < 1) (L : List Int) (v : Int) :
    constructWith n L v = .refused .sizeBelowOne :=
  if_pos hn

theorem constructWith_of_negative_seed {n v : Int} (hn : 1 ≤ n) (hv : v < 0) (L : List Int) :
    constructWith n L v = .refused .negativeSeed := by
  rw [constructWith, if_neg (not_lt.2 hn), if_pos hv]

/-- The seed is checked before the taps, which are any list here (R97). -/
theorem constructWith_of_seed_too_large {n v : Int} (hn : 1 ≤ n) (hv : 2 ^ n.toNat - 1 < v) (L : List Int) :
    constructWith n L v = .failed .invalidSeed := by
  have hpos : (0 : Int) < 2 ^ n.toNat := by positivity
  have hfits : seedFits n.toNat v = false := Bool.eq_false_iff.2 (seedFits_iff.not.2 (not_le.2 hv))
  rw [constructWith, if_neg (not_lt.2 hn), if_neg (by omega), hfits, Bool.not_false, if_pos rfl]

theorem constructWith_of_invalid_taps {n v : Int} {L : List Int} (hn : 1 ≤ n) (hv : 0 ≤ v)
    (hfits : seedFits n.toNat v = true) (hL : tapsValid n.toNat L = false) :
    constructWith n L v = .failed .invalidTaps := by
  simp [constructWith, not_lt.2 hn, not_lt.2 hv, hfits, hL]

/-- A list is rejected for one element out of range (R66). -/
theorem tapsValid_eq_false_iff {n : Nat} {L : List Int} :
    tapsValid n L = false ↔ ∃ t ∈ L, t < 0 ∨ (n : Int) - 1 < t := by
  rw [Bool.eq_false_iff, Ne, tapsValid_iff]
  simp only [not_forall, not_and_or, not_le, exists_prop]

/-- Settles O3: the step is the construction event, whose five outcomes the lemmas above give. -/
theorem generalConstructionOutcomes : Obligations.GeneralConstructionOutcomes := by
  intro s r rest n v L hs hsize htaps hseed
  rw [step_constructGeneral hs, constructGeneral_eq hsize htaps hseed]
  have hnat (hn : 1 ≤ n) : (n.toNat : Int) = n := Int.toNat_of_nonneg (by omega)
  refine ⟨fun hn => ?_, fun hn hv => ?_, fun hn hv => ?_, fun hn hv hfits hL => ?_, fun hn hv hfits hL => ?_⟩
  · rw [constructWith_of_size_lt_one hn, powerOn]
  · rw [constructWith_of_negative_seed hn hv, powerOn]
  · rw [constructWith_of_seed_too_large hn hv, powerOn, raise]
  · rw [constructWith_of_invalid_taps hn hv (seedFits_iff.2 hfits)
      (tapsValid_eq_false_iff.2 (by rwa [hnat hn])), powerOn, raise]
  · rw [constructWith_eq_made_iff.2 ⟨hn, hv, seedFits_iff.2 hfits, tapsValid_iff.2 (by rwa [hnat hn]), rfl⟩,
      powerOn, commit]

/-! ### The five commands -/

/-- Settles O11: the state string and its characters. -/
theorem generalStateReadsRegister : Obligations.GeneralStateReadsRegister := by
  intro s g hg
  exact ⟨_, exec_state hg, stateString_length _ _, fun k hk => stateString_getElem? hk⟩

/-- On a legal list the parity of the tapped bits reads every position as a natural number (R67). -/
theorem feedback_eq_parity_testBit {L : List Int} (hL : ∀ t ∈ L, 0 ≤ t) (S : Nat) :
    feedback S L = decide ((L.filter fun t => S.testBit t.toNat).length % 2 = 1) := by
  rw [feedback_eq_parity_count, List.filter_congr fun t ht => tapBit_of_nonneg (hL t ht)]

/-- Settles O12: the bits of the next state (`testBit_nextReg`), the top one the feedback. -/
theorem generalAdvanceShiftsAndFeedsBack : Obligations.GeneralAdvanceShiftsAndFeedsBack := by
  intro s g hg ⟨hsize, hreg, htaps⟩
  refine ⟨_, exec_advance_general hg, fun i hi => ?_, ?_, nextReg_lt g.taps hsize hreg⟩
  · rw [testBit_nextReg _ hsize hreg, if_neg hi.ne]
  · rw [testBit_nextReg _ hsize hreg, if_pos (Nat.sub_add_cancel hsize),
      feedback_eq_parity_testBit fun t ht => (htaps t ht).1]

/-- Settles O13: the list is stored, or leaves only an error behind. -/
theorem generalSetTapsReplacesOrRejects : Obligations.GeneralSetTapsReplacesOrRejects := by
  intro s g L hg
  refine ⟨fun hL => exec_setTaps_of_valid hg (tapsValid_iff.2 hL), fun hL => exec_setTaps_of_invalid hg ?_⟩
  exact Bool.eq_false_iff.1 (tapsValid_eq_false_iff.2 hL)

theorem exec_resetS_of_fits {s : State} {g : Glfsr} {v : Int} (hg : s.gen = some (.general g)) (hv : 0 ≤ v)
    (hfits : seedFits g.size v = true) :
    exec (.resetS v) s = commit (.general { g with reg := v.toNat }) (.num v.toNat) s := by
  rw [exec_resetS_general hg, generalResetS, if_neg (not_lt.2 hv), if_pos hfits]

theorem exec_resetS_of_too_large {s : State} {g : Glfsr} {v : Int} (hg : s.gen = some (.general g))
    (hv : 2 ^ g.size - 1 < v) : exec (.resetS v) s = raise .invalidSeed s := by
  have hpos : (0 : Int) < 2 ^ g.size := by positivity
  rw [exec_resetS_general hg, generalResetS, if_neg (by omega), if_neg (seedFits_iff.not.2 (not_le.2 hv))]

theorem exec_resetS_of_negative {s : State} {g : Glfsr} {v : Int} (hg : s.gen = some (.general g)) (hv : v < 0) :
    exec (.resetS v) s = .refused .negativeSeed := by
  rw [exec_resetS_general hg, generalResetS, if_pos hv]

/-- Settles O14: the three outcomes of `RESET.S`. -/
theorem generalResetLoadsSeedOrRejects : Obligations.GeneralResetLoadsSeedOrRejects := by
  intro s g v hg
  exact ⟨fun hv hfits => exec_resetS_of_fits hg hv (seedFits_iff.2 hfits), exec_resetS_of_too_large hg,
    exec_resetS_of_negative hg⟩

/-- Settles O15: `RESET.N` only answers. -/
theorem generalResetWithoutSeedWritesNothing : Obligations.GeneralResetWithoutSeedWritesNothing := by
  intro s g hg
  exact exec_resetN_general hg

/-! ### The range of the next state and its fixed point 0 -/

/-- Settles O22: the bits from `n` on are those of the state, which are 0. -/
theorem nextStateStaysInRange : Obligations.NextStateStaysInRange :=
  fun _ _ L hn hS => nextReg_lt L hn hS

/-- A run from 0 stays at 0 (R77). -/
theorem regAt_zero (n : Nat) (L : List Int) (t : Nat) : regAt n L 0 t = 0 := by
  induction t with
  | zero => rfl
  | succ t ih => rw [regAt, ih, nextReg_zero]

theorem outputAt_zero (n : Nat) (L : List Int) (t : Nat) : outputAt n L 0 t = false := by
  rw [outputAt, regAt_zero, outBit, Nat.zero_testBit]

/-- `GENSEQ` from 0 collects zeros and leaves the generator as it was. -/
theorem genSeq_of_value_zero {s : State} {x : Generator} (hx : s.gen = some x) (hzero : x.value = 0) (k : Nat) :
    ∃ h, genSeq k (Session.start s) = .ok (List.replicate k false, h) ∧ h.block.gen = s.gen := by
  have hstart : (Session.start s).block.gen = some x := hx
  obtain ⟨h, hadv, hgen, -⟩ := advances_of_gen k hstart
  have houtputs : (List.range k).map (outputAt x.size x.taps 0) = List.replicate k false := by
    simp [List.eq_replicate_iff, outputAt_zero]
  refine ⟨h, by rw [genSeq_of_gen k hstart, hadv, hzero, houtputs], ?_⟩
  rw [hgen, hzero, regAt_zero, ← hzero, x.withValue_value, hx]

/-- What a command can write to a generator at 0 leaves it at 0, but for the seed of `RESET.S` (R77). -/
theorem eq_resetS_of_leaves_zero {i : Instr} {s s' : State} {x x' : Generator} (hx : s.gen = some x)
    (hzero : x.value = 0) (h : exec i s = .next s') (hx' : s'.gen = some x') (hne : x'.value ≠ 0) :
    ∃ v, i = .resetS v := by
  obtain ⟨-, hgen | ⟨-, hgen⟩ | ⟨g, L, rfl, -, -, hgen⟩ | ⟨g, v, -, hi, -, -, -⟩⟩ := exec_writes hx h
  · cases hx'.symm.trans hgen
    exact absurd hzero hne
  · cases hx'.symm.trans hgen
    rw [Generator.value_withValue_next, hzero, nextReg_zero] at hne
    exact absurd rfl hne
  · cases hx'.symm.trans hgen
    exact absurd hzero hne
  · exact ⟨v, hi⟩

/-- Settles O23, part by part. -/
theorem zeroStateIsAFixedPoint : Obligations.ZeroStateIsAFixedPoint :=
  ⟨fun n L => ⟨nextReg_zero n L, rfl⟩, fun _ _ k hx hzero => genSeq_of_value_zero hx hzero k,
    fun _ _ _ _ _ => eq_resetS_of_leaves_zero⟩

/-! ### The next state depends on the mask alone -/

/-- The taps enter the feedback by their mask only (R18). -/
theorem feedback_eq_of_tapMask_eq {n : Nat} {L M : List Int} (hL : ∀ t ∈ L, 0 ≤ t ∧ t < (n : Int))
    (hM : ∀ t ∈ M, 0 ≤ t ∧ t < (n : Int)) (hmask : tapMask n L = tapMask n M) (S : Nat) :
    feedback S L = feedback S M := by
  rw [feedback_eq_foldr_mask hL, feedback_eq_foldr_mask hM, ← parity_and_tapMask, ← parity_and_tapMask, hmask]

/-- Settles O25: the next state reads the taps through the feedback. -/
theorem onlyTheMaskMatters : Obligations.OnlyTheMaskMatters := by
  intro n S L M _ hL hM hmask
  rw [nextReg, nextReg, feedback_eq_of_tapMask_eq hL hM hmask]

/-! ### When the step is a bijection

The step is linear over GF(2), so it is injective exactly when no state but 0 steps to 0. Shifted out, such a state
has no bit but bit 0, and 1 steps to 0 exactly when position 0 is listed an even number of times. -/

theorem tapBit_xor (S T : Nat) (t : Int) : tapBit (S ^^^ T) t = xor (tapBit S t) (tapBit T t) := by
  cases t with
  | ofNat p => exact Nat.testBit_xor S T p
  | negSucc p => rfl

theorem feedback_xor (S T : Nat) (L : List Int) : feedback (S ^^^ T) L = xor (feedback S L) (feedback T L) := by
  induction L with
  | nil => rfl
  | cons t L ih =>
    simp only [feedback_cons, tapBit_xor, ih, Bool.xor_assoc, Bool.xor_left_comm]

/-- The step is linear over GF(2) (R19). -/
theorem nextReg_xor {n S T : Nat} (L : List Int) (hn : 1 ≤ n) (hS : S < 2 ^ n) (hT : T < 2 ^ n) :
    nextReg n (S ^^^ T) L = nextReg n S L ^^^ nextReg n T L := by
  refine Nat.eq_of_testBit_eq fun i => ?_
  rw [Nat.testBit_xor, testBit_nextReg L hn (Nat.xor_lt_two_pow hS hT), testBit_nextReg L hn hS,
    testBit_nextReg L hn hT]
  split
  · exact feedback_xor S T L
  · exact Nat.testBit_xor S T (i + 1)

/-- The state 1 feeds back its one bit once for each listing of position 0. -/
theorem feedback_one (L : List Int) : feedback 1 L = decide (L.count 0 % 2 = 1) := by
  have htap : tapBit 1 = (· == 0) := by
    funext t
    cases t with
    | ofNat p =>
      rw [Bool.eq_iff_iff]
      simp [tapBit, Nat.testBit_one_eq_true_iff_self_eq_zero]
    | negSucc p => rfl
  rw [feedback_eq_parity_count, htap, List.count_eq_length_filter]

/-- A state that steps to 0 has no bit above bit 0, and its feedback is 0. -/
theorem nextReg_eq_zero_iff {n S : Nat} {L : List Int} :
    nextReg n S L = 0 ↔ S ≤ 1 ∧ feedback S L = false := by
  have hshift : S >>> 1 = 0 ↔ S ≤ 1 := by
    rw [Nat.shiftRight_eq_div_pow]
    omega
  have hfeedback : (feedback S L).toNat * 2 ^ (n - 1) = 0 ↔ feedback S L = false := by
    simp
  rw [nextReg, Nat.or_eq_zero_iff, hshift, hfeedback]

/-- Injective means that 0 and 1 step to different states: two states with the same next state differ by one that
steps to 0. -/
theorem nextReg_injective_iff {n : Nat} (L : List Int) (hn : 1 ≤ n) :
    (∀ S T, S < 2 ^ n → T < 2 ^ n → nextReg n S L = nextReg n T L → S = T) ↔ L.count 0 % 2 = 1 := by
  have hone : feedback 1 L = false ↔ ¬ L.count 0 % 2 = 1 := by rw [feedback_one, decide_eq_false_iff_not]
  constructor
  · intro hinj
    by_contra hodd
    have hkernel : nextReg n 1 L = 0 := nextReg_eq_zero_iff.2 ⟨le_rfl, hone.2 hodd⟩
    have hzero := hinj 1 0 (Nat.one_lt_two_pow (by omega)) (Nat.two_pow_pos n) (hkernel.trans (nextReg_zero n L).symm)
    exact one_ne_zero hzero
  · intro hodd S T hS hT heq
    have hkernel : nextReg n (S ^^^ T) L = 0 := by rw [nextReg_xor L hn hS hT, heq, Nat.xor_self]
    obtain ⟨hle, hfeedback⟩ := nextReg_eq_zero_iff.1 hkernel
    obtain hdiff | hdiff := Nat.le_one_iff_eq_zero_or_eq_one.1 hle
    · exact Nat.xor_eq_zero_iff.1 hdiff
    · rw [hdiff, hone] at hfeedback
      exact absurd hodd hfeedback

/-- The states in range are finitely many, so a step that is injective on them reaches them all. -/
theorem exists_nextReg_eq_of_injective {n : Nat} {L : List Int} (hn : 1 ≤ n)
    (hinj : ∀ S T, S < 2 ^ n → T < 2 ^ n → nextReg n S L = nextReg n T L → S = T) {T : Nat} (hT : T < 2 ^ n) :
    ∃ S, S < 2 ^ n ∧ nextReg n S L = T := by
  have hmaps : Set.MapsTo (nextReg n · L) (Finset.range (2 ^ n)) (Finset.range (2 ^ n)) := fun S hS =>
    Finset.mem_coe.2 (Finset.mem_range.2 (nextReg_lt L hn (Finset.mem_range.1 hS)))
  have hinjOn : Set.InjOn (nextReg n · L) (Finset.range (2 ^ n)) := fun S hS U hU =>
    hinj S U (Finset.mem_range.1 hS) (Finset.mem_range.1 hU)
  obtain ⟨S, hS, hnext⟩ := Finset.surjOn_of_injOn_of_card_le _ hmaps hinjOn le_rfl (Finset.mem_range.2 hT)
  exact ⟨S, Finset.mem_range.1 hS, hnext⟩

/-- Settles O27: injectivity decides, since it gives surjectivity. -/
theorem stepIsBijectionIffTapZeroIsOdd : Obligations.StepIsBijectionIffTapZeroIsOdd := by
  intro n L hn _
  rw [← nextReg_injective_iff L hn]
  exact ⟨And.left, fun hinj => ⟨hinj, fun _ => exists_nextReg_eq_of_injective hn hinj⟩⟩

/-! ### The output stream -/

/-- The register at every time holds the next `n` outputs (R76). -/
theorem testBit_regAt_eq_outputAt {n S : Nat} (L : List Int) (hn : 1 ≤ n) (hS : S < 2 ^ n) (t : Nat) {i : Nat}
    (hi : i < n) : (regAt n L S t).testBit i = outputAt n L S (t + i) := by
  rw [← outputAt_of_lt L hn (regAt_lt L hn hS t) hi, outputAt, outputAt, regAt_add]

/-- Settles O28: the output `n` advances later is the feedback of a register that holds the `n` outputs between. -/
theorem outputStreamObeysTheRecurrence : Obligations.OutputStreamObeysTheRecurrence := by
  intro n S L hn hS hL
  refine ⟨fun j => outputAt_of_lt L hn hS, fun t => ?_, fun t i => testBit_regAt_eq_outputAt L hn hS t⟩
  rw [outputAt_add_size L hn hS, feedback_eq_foldr_mask hL]
  refine List.foldr_ext _ _ _ fun p hp acc => ?_
  rw [testBit_regAt_eq_outputAt L hn hS t (List.mem_range.1 hp)]

end Sys2Proof.Machine
end

section
/-! The host procedures' statements (42_sequence_utilities.md): the outputs that `GENSEQ` collects (R83), and the scan
of `ISMAXLEN`: where it stops, what it issues, its verdict and what it leaves behind (R84 to R88). -/

namespace Sys2Proof.Machine

/-! ### `MAXPERIOD` -/

/-- Settles O47: the two branches of `maxPeriod`. -/
theorem maxPeriodIsTwoToTheSizeLessOne : Obligations.MaxPeriodIsTwoToTheSizeLessOne := by
  intro size
  exact ⟨fun hpos => if_neg (not_lt.2 hpos), fun hlt => if_pos hlt⟩

theorem maxPeriod_natCast {n : Nat} (hn : 1 ≤ n) : maxPeriod n = .ok (2 ^ n - 1) :=
  (maxPeriodIsTwoToTheSizeLessOne n).1 (by exact_mod_cast hn)

/-! ### `GENSEQ` -/

/-- The states of a generator of either variant, from its own on (R76). -/
abbrev Generator.valueAt (x : Generator) (t : Nat) : Nat := regAt x.size x.taps x.value t

/-- The generator `t` advances on. -/
def Generator.after (x : Generator) (t : Nat) : Generator := x.withValue (x.valueAt t)

section
variable (x : Generator) (t : Nat)

@[simp] theorem Generator.size_after : (x.after t).size = x.size := x.size_withValue _

@[simp] theorem Generator.taps_after : (x.after t).taps = x.taps := x.taps_withValue _

/-- The register of the generator `t` advances on is the `t`-th state (an FLFSR4's is in range). -/
@[simp] theorem Generator.value_after : (x.after t).value = x.valueAt t := by
  cases x with
  | fixed f =>
    have hreg : (Generator.fixed f).valueAt t = (Flfsr4.next^[t] f).reg.toNat := (f.iterate_next_toNat t).symm
    rw [Generator.after, hreg, Generator.withValue_fixed_toNat, Generator.value_fixed]
  | general g => rfl

theorem Generator.valueAt_zero : x.valueAt 0 = x.value := rfl

theorem Generator.after_zero : x.after 0 = x := x.withValue_value

/-- One `ADVANCE` leads from the generator `t` advances on to the next one. -/
theorem Generator.withValue_nextReg_after :
    (x.after t).withValue (nextReg (x.after t).size (x.after t).value (x.after t).taps) = x.after (t + 1) := by
  rw [Generator.size_after, Generator.taps_after, Generator.value_after, Generator.after,
    Generator.withValue_withValue]
  rfl

end

/-- What a run of at least one advance is made of. -/
theorem advances_succ_cases {k : Nat} {h h2 : Session} {bs : List Bool} (hrun : advances (k + 1) h = .ok (bs, h2)) :
    ∃ b h1 cs, issueAdvance h = .ok (b, h1) ∧ advances k h1 = .ok (cs, h2) ∧ bs = b :: cs := by
  rw [advances] at hrun
  split at hrun
  · cases hrun
  · next b h1 hb =>
    split at hrun
    · cases hrun
    · next cs h2 hcs =>
      cases hrun
      exact ⟨b, h1, cs, hb, hcs, rfl⟩

/-- Two runs of advances, one after the other, are one run. -/
theorem advances_add {a b : Nat} {h h1 h2 : Session} {as bs : List Bool} (ha : advances a h = .ok (as, h1))
    (hb : advances b h1 = .ok (bs, h2)) : advances (a + b) h = .ok (as ++ bs, h2) := by
  induction a generalizing h as with
  | zero =>
    cases ha
    rwa [Nat.zero_add]
  | succ a ih =>
    obtain ⟨c, h0, cs, hc, hcs, rfl⟩ := advances_succ_cases ha
    rw [Nat.succ_add]
    simp only [advances, hc, ih hcs, List.cons_append]

/-- What `GENSEQ` answers, it answers by advancing. -/
theorem advances_of_genSeq {k : Nat} {h : Session} {r : List Bool × Session} (hr : genSeq k h = .ok r) :
    advances k h = .ok r := by
  cases hx : h.block.gen with
  | none =>
    rw [genSeq, if_neg (by omega), if_pos hx] at hr
    cases hr
  | some x => rwa [genSeq_of_gen k hx] at hr

/-- Settles O48: `advances_of_gen` says what the run is, `advances_add` that runs compose. -/
theorem genSeqCollectsTheOutputs : Obligations.GenSeqCollectsTheOutputs := by
  intro h x hx
  refine ⟨fun length => ?_, fun a b as bs h1 h2 ha hb => ?_, fun length hneg => if_pos hneg⟩
  · obtain ⟨h', hadv, hgen, hlog⟩ := advances_of_gen length hx
    refine ⟨_, h', x.after length, (genSeq_of_gen length hx).trans hadv, by simp, ?_, fun hpos => ?_, hgen,
      x.size_after _, x.taps_after _, x.value_after _⟩
    · rw [hlog, List.map_map]
      rfl
    · rw [List.getElem?_map, List.getElem?_range hpos]
      rfl
  · rw [genSeq_of_gen _ hx]
    exact advances_add (advances_of_genSeq ha) (advances_of_genSeq hb)

/-! ### The commands a procedure issues -/

/-- From `h` to `h'` the host issued at most so many of `STATE` and of `ADVANCE`. -/
def IssuedAtMost (h h' : Session) (states advances : Nat) : Prop :=
  ∃ issued, h'.log = h.log ++ issued ∧ (issued.countP fun c => decide (c.1 = .state)) ≤ states ∧
    (issued.countP fun c => decide (c.1 = .advance)) ≤ advances

section
variable {h h1 h2 : Session} {a b c d : Nat}

theorem IssuedAtMost.refl (h : Session) : IssuedAtMost h h 0 0 := ⟨[], by simp, by simp, by simp⟩

theorem IssuedAtMost.trans (hab : IssuedAtMost h h1 a b) (hcd : IssuedAtMost h1 h2 c d) :
    IssuedAtMost h h2 (a + c) (b + d) := by
  obtain ⟨l, hl, ha, hb⟩ := hab
  obtain ⟨m, hm, hc, hd⟩ := hcd
  refine ⟨l ++ m, by rw [hm, hl, List.append_assoc], ?_, ?_⟩ <;> rw [List.countP_append]
  · exact Nat.add_le_add ha hc
  · exact Nat.add_le_add hb hd

theorem IssuedAtMost.mono (hab : IssuedAtMost h h1 a b) (hac : a ≤ c) (hbd : b ≤ d) : IssuedAtMost h h1 c d := by
  obtain ⟨l, hl, ha, hb⟩ := hab
  exact ⟨l, hl, ha.trans hac, hb.trans hbd⟩

end

/-! ### Where the scan stops -/

/-- The first `k` states are distinct. -/
def DistinctBelow (a : Nat → Nat) (k : Nat) : Prop := ∀ i j, i < j → j < k → a i ≠ a j

theorem distinctBelow_zero (a : Nat → Nat) : DistinctBelow a 0 := fun _ _ _ hj => absurd hj (Nat.not_lt_zero _)

theorem DistinctBelow.succ {a : Nat → Nat} {k : Nat} (hk : DistinctBelow a k) (hnew : ¬ ∃ i < k, a i = a k) :
    DistinctBelow a (k + 1) := by
  intro i j hij hj
  obtain hj | rfl := Nat.lt_succ_iff_lt_or_eq.1 hj
  · exact hk i j hij hj
  · exact fun heq => hnew ⟨i, hij, heq⟩

/-- The scan of `ISMAXLEN` over the states `a 0, a 1, …` stops at `k` under the bound `M` (R85): no repeat before,
and there the bound is used up or the state is a repeat. -/
structure StopsAt (a : Nat → Nat) (M k : Nat) : Prop where
  bound : k ≤ M
  distinct : DistinctBelow a k
  stop : k = M ∨ ∃ i < k, a i = a k

section
variable {a : Nat → Nat} {M k l : Nat}

/-- A scan that has stopped does not go on. -/
theorem StopsAt.le (hk : StopsAt a M k) (hl : StopsAt a M l) : l ≤ k := by
  by_contra hlt
  obtain rfl | ⟨i, hi, hrepeat⟩ := hk.stop
  · exact hlt hl.bound
  · exact hl.distinct i k hi (not_le.1 hlt) hrepeat

/-- The scan stops at one place only. -/
theorem StopsAt.unique (hk : StopsAt a M k) (hl : StopsAt a M l) : k = l := le_antisymm (hl.le hk) (hk.le hl)

/-- Among states below `N` the scan stops at `N` at the latest, so a larger bound is not used up. -/
theorem StopsAt.exists_repeat {N : Nat} (hk : StopsAt a M k) (ha : ∀ t, a t < N) (hM : N < M) :
    ∃ i < k, a i = a k := by
  refine hk.stop.resolve_left fun hused => ?_
  have hmaps : ∀ t ∈ Finset.range k, a t ∈ Finset.range N := fun t _ => Finset.mem_range.2 (ha t)
  obtain ⟨i, hi, j, hj, hne, heq⟩ :=
    Finset.exists_ne_map_eq_of_card_lt_of_maps_to (by simpa [hused] using hM) hmaps
  rw [Finset.mem_range] at hi hj
  obtain hlt | hgt := Nat.lt_or_gt_of_ne hne
  · exact hk.distinct i j hlt hj heq
  · exact hk.distinct j i hgt hi heq.symm

end

section
variable {n S : Nat} {L : List Int}

/-- Where the step is injective, equal states `i` advances on come from equal states. -/
theorem eq_regAt_of_regAt_add (hn : 1 ≤ n) (hS : S < 2 ^ n) (hodd : L.count 0 % 2 = 1) {i d : Nat}
    (heq : regAt n L S i = regAt n L S (i + d)) : S = regAt n L S d := by
  induction i with
  | zero => rwa [Nat.zero_add] at heq
  | succ i ih =>
    rw [Nat.succ_add] at heq
    exact ih ((nextReg_injective_iff L hn).2 hodd _ _ (regAt_lt L hn hS _) (regAt_lt L hn hS _) heq)

/-- Where the step is injective the first state to repeat is the first state (R88). -/
theorem regAt_eq_of_stopsAt (hn : 1 ≤ n) (hS : S < 2 ^ n) (hodd : L.count 0 % 2 = 1) {M k : Nat}
    (hM : 2 ^ n < M) (hk : StopsAt (regAt n L S) M k) : regAt n L S k = S := by
  obtain ⟨i, hi, hrepeat⟩ := hk.exists_repeat (regAt_lt L hn hS) hM
  obtain ⟨d, rfl⟩ := Nat.exists_eq_add_of_lt hi
  have hback : S = regAt n L S (d + 1) := eq_regAt_of_regAt_add hn hS hodd hrepeat
  cases i with
  | zero => exact hrepeat.symm
  | succ i => exact absurd hback (hk.distinct 0 (d + 1) (by omega) (by omega))

end

/-! ### The scan -/

/-- The loop of `ISMAXLEN` on `x` has counted `k` states: it has seen their strings, and the generator is `k` advances
on. -/
structure ScannedTo (x : Generator) (k : Nat) (c : Scan) : Prop where
  seen : c.seen = (List.range k).reverse.map fun j => stateString x.size (x.valueAt j)
  period : c.period = k
  gen : c.session.block.gen = some (x.after k)

theorem scannedTo_start {h : Session} {x : Generator} (hx : h.block.gen = some x) :
    ScannedTo x 0 { seen := [], period := 0, session := h } :=
  ⟨rfl, rfl, by rw [x.after_zero, hx]⟩

theorem scanLoop_of_seen {c : Scan} {cs : List Char} {h1 : Session} (M : Nat)
    (hstate : issueState c.session = .ok (cs, h1)) (hseen : cs ∈ c.seen) :
    scanLoop (M + 1) c = .ok { c with session := h1 } := by
  simp only [scanLoop, hstate, if_pos hseen]

theorem scanLoop_of_not_seen {c : Scan} {cs : List Char} {b : Bool} {h1 h2 : Session} (M : Nat)
    (hstate : issueState c.session = .ok (cs, h1)) (hseen : cs ∉ c.seen) (hadv : issueAdvance h1 = .ok (b, h2)) :
    scanLoop (M + 1) c = scanLoop M { seen := cs :: c.seen, period := c.period + 1, session := h2 } := by
  simp only [scanLoop, hstate, if_neg hseen, hadv]

section
variable {x : Generator} {k : Nat} {c : Scan}

/-- `STATE` in the loop reads the `k`-th state. -/
theorem ScannedTo.exists_issueState (hc : ScannedTo x k c) :
    ∃ h1, issueState c.session = .ok (stateString x.size (x.valueAt k), h1) ∧
      h1.block.gen = some (x.after k) ∧ IssuedAtMost c.session h1 1 0 := by
  obtain ⟨h1, hstate, hgen, hlog⟩ := issueState_of_gen hc.gen
  rw [x.size_after, x.value_after] at hstate
  exact ⟨h1, hstate, hgen, _, hlog, by simp, by simp⟩

/-- `ADVANCE` in the loop leads to the next state. -/
theorem exists_issueAdvance_after {h : Session} (hx : h.block.gen = some (x.after k)) :
    ∃ b h1, issueAdvance h = .ok (b, h1) ∧ h1.block.gen = some (x.after (k + 1)) ∧ IssuedAtMost h h1 0 1 := by
  obtain ⟨h1, hadv, hgen, hlog⟩ := issueAdvance_of_gen hx
  rw [x.withValue_nextReg_after] at hgen
  exact ⟨_, h1, hadv, hgen, _, hlog, by simp, by simp⟩

/-- A string has been seen exactly when the state it spells is a repeat (R33). -/
theorem ScannedTo.mem_seen_iff (hc : ScannedTo x k c) (hx : x.Legal) :
    stateString x.size (x.valueAt k) ∈ c.seen ↔ ∃ i < k, x.valueAt i = x.valueAt k := by
  obtain ⟨hsize, hvalue, -⟩ := hx.ranges
  have hstring : ∀ i, stateString x.size (x.valueAt i) = stateString x.size (x.valueAt k) ↔
      x.valueAt i = x.valueAt k := fun i =>
    ⟨stateString_injective (regAt_lt _ hsize hvalue i) (regAt_lt _ hsize hvalue k), congrArg _⟩
  simp [hc.seen, hstring]

/-- One iteration that meets no repeat. -/
theorem ScannedTo.succ (hc : ScannedTo x k c) {h : Session} (hx : h.block.gen = some (x.after (k + 1))) :
    ScannedTo x (k + 1)
      { seen := stateString x.size (x.valueAt k) :: c.seen, period := c.period + 1, session := h } :=
  ⟨by simp [hc.seen, List.range_succ], by rw [hc.period], hx⟩

/-- The oldest string seen is that of the state before the call. -/
theorem ScannedTo.getLast?_seen (hc : ScannedTo x (k + 1) c) : c.seen.getLast? = some (stateString x.size x.value) := by
  rw [hc.seen, List.map_reverse, List.getLast?_reverse, List.range_succ_eq_map, List.map_cons, List.head?_cons,
    x.valueAt_zero]

end

/-- The loop, from where it has counted `k` states without a repeat: it ends where the scan stops, with at most one
`STATE` and one `ADVANCE` for each iteration left (R85, R86). -/
theorem exists_scanLoop {x : Generator} (hx : x.Legal) (m : Nat) {k : Nat} {c : Scan} (hc : ScannedTo x k c)
    (hdistinct : DistinctBelow x.valueAt k) :
    ∃ l c', scanLoop m c = .ok c' ∧ StopsAt x.valueAt (k + m) l ∧ ScannedTo x l c' ∧
      IssuedAtMost c.session c'.session m m := by
  induction m generalizing k c with
  | zero => exact ⟨k, c, rfl, ⟨le_rfl, hdistinct, .inl rfl⟩, hc, .refl _⟩
  | succ m ih =>
    obtain ⟨h1, hstate, hgen1, hissued1⟩ := hc.exists_issueState
    by_cases hseen : stateString x.size (x.valueAt k) ∈ c.seen
    · exact ⟨k, { c with session := h1 }, scanLoop_of_seen m hstate hseen,
        ⟨by omega, hdistinct, .inr ((hc.mem_seen_iff hx).1 hseen)⟩, ⟨hc.seen, hc.period, hgen1⟩,
        hissued1.mono (by omega) (by omega)⟩
    · obtain ⟨b, h2, hadv, hgen2, hissued2⟩ := exists_issueAdvance_after hgen1
      obtain ⟨l, c', hloop, hstop, hscan, hissued⟩ := ih (hc.succ hgen2)
        (hdistinct.succ ((hc.mem_seen_iff hx).not.1 hseen))
      refine ⟨l, c', (scanLoop_of_not_seen m hstate hseen hadv).trans hloop, ?_, hscan, ?_⟩
      · rwa [Nat.add_right_comm] at hstop
      · exact ((hissued1.trans hissued2).trans hissued).mono (by omega) (by omega)

/-- The scan of `ISMAXLEN` under the bound `M`. -/
theorem exists_scan {h : Session} {x : Generator} (hx : h.block.gen = some x) (hlegal : x.Legal) (M : Nat) :
    ∃ k c, scanLoop M { seen := [], period := 0, session := h } = .ok c ∧
      StopsAt x.valueAt M k ∧ ScannedTo x k c ∧ IssuedAtMost h c.session M M := by
  have hscan := exists_scanLoop hlegal M (scannedTo_start hx) (distinctBelow_zero _)
  rwa [Nat.zero_add] at hscan

/-! ### The restoration -/

theorem restoreScan_false (c : Scan) : restoreScan false c = .ok c.session := by
  simp [restoreScan]

/-- An FLFSR4 has no `RESET.S`, so nothing is restored (R87). -/
theorem restoreScan_fixed {c : Scan} {f : Flfsr4} (hf : c.session.block.gen = some (.fixed f)) (restore : Bool) :
    restoreScan restore c = .ok c.session := by
  simp [restoreScan, hf]

theorem restoreScan_of_seen_nil {c : Scan} (hseen : c.seen = []) (restore : Bool) :
    restoreScan restore c = .ok c.session := by
  simp [restoreScan, hseen]

theorem restoreScan_of_seen {c : Scan} {g : Glfsr} {cs : List Char} {r : Response} {h : Session}
    (hg : c.session.block.gen = some (.general g)) (hcs : c.seen.getLast? = some cs)
    (hreset : issue (.resetS (stringValue cs)) c.session = .ok (r, h)) : restoreScan true c = .ok h := by
  simp only [restoreScan, hg, hcs, hreset]

/-- On a GLFSR the restoration brings back the generator as it was before the call (R87). -/
theorem exists_restoreScan_general {g : Glfsr} {k : Nat} {c : Scan} (hg : g.Legal)
    (hc : ScannedTo (.general g) k c) :
    ∃ h', restoreScan true c = .ok h' ∧ h'.block.gen = some (.general g) ∧ IssuedAtMost c.session h' 0 0 := by
  cases k with
  | zero =>
    refine ⟨c.session, restoreScan_of_seen_nil hc.seen true, ?_, .refl _⟩
    rw [hc.gen, Generator.after_zero]
  | succ k =>
    obtain ⟨-, hreg, -⟩ := hg
    have hvalue : stringValue (stateString g.size g.reg) = g.reg := by
      rw [stringValue_stateString, Nat.mod_eq_of_lt hreg]
    have hfits : seedFits g.size g.reg = true :=
      seedFits_iff.2 (Int.le_sub_one_of_lt (by exact_mod_cast hreg))
    have hreset := issue_of_exec (exec_resetS_of_fits hc.gen (Int.natCast_nonneg g.reg) hfits) rfl
    rw [← hvalue] at hreset
    refine ⟨_, restoreScan_of_seen hc.gen hc.getLast?_seen hreset, ?_, _, rfl, by simp, by simp⟩
    rw [hvalue, Int.toNat_natCast]

/-- Either choice is answered, and leaves the generator before the call or the one where the scan stopped (R87). -/
theorem exists_restoreScan (restore : Bool) {x : Generator} {k : Nat} {c : Scan} (hx : x.Legal)
    (hc : ScannedTo x k c) :
    ∃ h', restoreScan restore c = .ok h' ∧ IssuedAtMost c.session h' 0 0 ∧
      (h'.block.gen = some x ∨ h'.block.gen = some (x.after k)) := by
  cases restore with
  | false => exact ⟨_, restoreScan_false c, .refl _, .inr hc.gen⟩
  | true =>
    cases x with
    | fixed f => exact ⟨_, restoreScan_fixed hc.gen true, .refl _, .inr hc.gen⟩
    | general g =>
      obtain ⟨h', hrestore, hgen, hissued⟩ := exists_restoreScan_general hx hc
      exact ⟨h', hrestore, hissued, .inl hgen⟩

/-! ### `ISMAXLEN` -/

section
variable {h : Session} {x : Generator} (hx : h.block.gen = some x) (hsize : 1 ≤ x.size) (restore : Bool)
include hx hsize

/-- `ISMAXLEN` reads its bound through `scanBound` alone. -/
theorem isMaxLen_congr {m m' : Option Int} (hm : scanBound (2 ^ x.size - 1) m = scanBound (2 ^ x.size - 1) m') :
    isMaxLen restore m h = isMaxLen restore m' h := by
  simp only [isMaxLen, hx, maxPeriod_natCast hsize, hm]

theorem isMaxLen_of_negative {m : Int} (hm : m < 0) : isMaxLen restore (some m) h = .error .negativeCount := by
  simp only [isMaxLen, hx, maxPeriod_natCast hsize, scanBound, if_pos hm]

/-- The scan's counter gives the verdict, the restoration the block left behind. -/
theorem isMaxLen_of_scan {M : Nat} {c : Scan} {h' : Session}
    (hscan : scanLoop M { seen := [], period := 0, session := h } = .ok c)
    (hrestore : restoreScan restore c = .ok h') :
    isMaxLen restore (some M) h = .ok (decide (c.period = 2 ^ x.size - 1), h') := by
  have hbound : scanBound (2 ^ x.size - 1) (some M) = .ok M := rfl
  simp only [isMaxLen, hx, maxPeriod_natCast hsize, hbound, hscan, hrestore]

/-- The omitted bound is twice the maximum period (R84). -/
theorem isMaxLen_none : isMaxLen restore none h = isMaxLen restore (some (2 * (2 ^ x.size - 1) : Nat)) h :=
  isMaxLen_congr hx hsize restore rfl

end

/-- Settles O50: the default bound as an integer, and the refusal of `scanBound`. -/
theorem isMaxLenDefaultBound : Obligations.IsMaxLenDefaultBound := by
  intro restore h x hx hsize
  refine ⟨?_, fun m => isMaxLen_of_negative hx hsize restore⟩
  rw [isMaxLen_none hx hsize, Nat.cast_mul, Nat.cast_sub Nat.one_le_two_pow]
  simp

/-- Everything the two choices of R87 share: `ISMAXLEN` answers whether the scan stops at the maximum period. -/
theorem exists_isMaxLen {h : Session} {x : Generator} (hx : h.block.gen = some x) (hlegal : x.Legal) (restore : Bool)
    (M : Nat) :
    ∃ k h', isMaxLen restore (some M) h = .ok (decide (k = 2 ^ x.size - 1), h') ∧
      StopsAt x.valueAt M k ∧ IssuedAtMost h h' M M ∧
      (h'.block.gen = some x ∨ h'.block.gen = some (x.after k)) := by
  obtain ⟨hsize, -, -⟩ := hlegal.ranges
  obtain ⟨k, c, hscan, hstop, hc, hissued⟩ := exists_scan hx hlegal M
  obtain ⟨h', hrestore, hrestoring, hgen⟩ := exists_restoreScan restore hlegal hc
  refine ⟨k, h', ?_, hstop, hissued.trans hrestoring, hgen⟩
  rw [isMaxLen_of_scan hx hsize restore hscan hrestore, hc.period]

/-- Settles O51: one `STATE` and one `ADVANCE` at most for each iteration. -/
theorem isMaxLenEndsWithinItsBound : Obligations.IsMaxLenEndsWithinItsBound := by
  intro restore M h x hx hlegal
  obtain ⟨k, h', hanswer, -, ⟨issued, hlog, hstates, hadvances⟩, -⟩ := exists_isMaxLen hx hlegal restore M
  exact ⟨_, h', issued, hanswer, hlog, hstates, hadvances⟩

/-- Settles O52: the scan stops at one place, so it stops at the maximum period exactly when that is such a place. -/
theorem isMaxLenVerdict : Obligations.IsMaxLenVerdict := by
  intro restore M h x hx hlegal
  obtain ⟨k, h', hanswer, hstop, -, -⟩ := exists_isMaxLen hx hlegal restore M
  refine ⟨_, h', hanswer, ?_⟩
  rw [decide_eq_true_iff]
  constructor
  · rintro rfl
    exact ⟨hstop.bound, hstop.distinct, hstop.stop.imp_left Eq.symm⟩
  · rintro ⟨hbound, hdistinct, hend⟩
    exact hstop.unique ⟨hbound, hdistinct, hend.imp_left Eq.symm⟩

/-- Settles O53: both choices run one scan, after which `restoreScan` says what each leaves on each variant. -/
theorem isMaxLenLeavesStartOrStop : Obligations.IsMaxLenLeavesStartOrStop := by
  intro M h x hx hlegal
  obtain ⟨hsize, -, -⟩ := hlegal.ranges
  obtain ⟨k, c, hscan, hstop, hc, -⟩ := exists_scan hx hlegal M
  have hanswer := fun restore h' => isMaxLen_of_scan (h' := h') hx hsize restore hscan
  have hstay := hanswer false c.session (restoreScan_false c)
  cases x with
  | fixed f =>
    refine ⟨_, k, c.session, c.session, hstop.bound, hstop.distinct, hstop.stop,
      hanswer true _ (restoreScan_fixed hc.gen true), hstay, ?_, by simp⟩
    rintro f' ⟨⟩
    exact ⟨rfl, hc.gen⟩
  | general g =>
    obtain ⟨h1, hrestore, hgen, -⟩ := exists_restoreScan_general hlegal hc
    refine ⟨_, k, h1, c.session, hstop.bound, hstop.distinct, hstop.stop, hanswer true h1 hrestore, hstay,
      by simp, ?_⟩
    rintro g' ⟨⟩
    exact ⟨hgen.trans hx.symm, hc.gen⟩

/-- Settles O54: the default bound exceeds the number of states, so the scan stops at a repeat, and where the step is
injective that is the state before the call. -/
theorem isMaxLenReturnsToStartWhenBijective : Obligations.IsMaxLenReturnsToStartWhenBijective := by
  intro restore h x hx hlegal htwo hodd
  obtain ⟨hsize, hvalue, -⟩ := hlegal.ranges
  have hbound : 2 ^ x.size < 2 * (2 ^ x.size - 1) := by
    have hfour : 2 ^ 2 ≤ 2 ^ x.size := Nat.pow_le_pow_right two_pos htwo
    omega
  obtain ⟨k, h', hanswer, hstop, -, hgen⟩ := exists_isMaxLen hx hlegal restore (2 * (2 ^ x.size - 1))
  have hvalueAt : x.valueAt k = x.value := regAt_eq_of_stopsAt hsize hvalue hodd hbound hstop
  have hback : x.after k = x := by rw [Generator.after, hvalueAt, Generator.withValue_value]
  refine ⟨_, h', (isMaxLen_none hx hsize restore).trans hanswer, ?_⟩
  rwa [hback, or_self, ← hx] at hgen

end Sys2Proof.Machine
end

section
/-! The packing's statements (43_bit_packing.md): what `BITS2BYTES` answers (R89), what it refuses (R90), and its laws
(R91). -/

namespace Sys2Proof.Machine

/-! ### The bytes of a packing -/

/-- A byte depends on the eight bits of its own group alone (R89). -/
theorem packByte_congr {as bs : List Bool} {j k : Nat}
    (h : ∀ i < 8, as.getD (8 * j + i) false = bs.getD (8 * k + i) false) : packByte as j = packByte bs k := by
  have hsummand : ∀ i ∈ List.range 8, (as.getD (8 * j + i) false).toNat * 2 ^ (7 - i) =
      (bs.getD (8 * k + i) false).toNat * 2 ^ (7 - i) := fun i hi => by rw [h i (List.mem_range.1 hi)]
  rw [packByte, packByte, List.map_congr_left hsummand]

/-- A packing is one byte for each group of eight; what lies past the end reads as the zeros of the padding (R89). -/
theorem packBits_eq_map (bits : List Bool) :
    packBits bits = (List.range ((bits.length + 7) / 8)).map (packByte bits) := by
  rw [packBits, padded_length, Nat.mul_div_cancel_left _ (by decide)]
  exact List.map_congr_left fun j _ => packByte_congr fun i _ => padded_getD bits _

@[simp] theorem length_packBits (bits : List Bool) : (packBits bits).length = (bits.length + 7) / 8 := by
  rw [packBits_eq_map, List.length_map, List.length_range]

/-- Bit `7-i` of byte `j` is bit `8*j+i` of the sequence, or 0 past its end (R89). -/
theorem getLsbD_getD_packBits (bits : List Bool) {i j : Nat} (hj : j < (bits.length + 7) / 8) (hi : i < 8) :
    ((packBits bits).getD j 0#8).getLsbD (7 - i) = bits.getD (8 * j + i) false := by
  have hbyte : (packBits bits).getD j 0#8 = packByte bits j := by
    rw [packBits_eq_map, List.getD_eq_getElem?_getD, List.getElem?_map, List.getElem?_range hj]
    rfl
  rw [hbyte, getLsbD_packByte bits j (by omega), Nat.sub_sub_self (by omega)]

/-- Settles O55: an encoded bit is accepted, and `getLsbD_getD_packBits` says where it stands. -/
theorem packingFillsFromBitSeven : Obligations.PackingFillsFromBitSeven := by
  intro bits
  refine ⟨packBits bits, ?_, length_packBits bits, fun j i hj hi => ?_⟩
  · rw [bitsToBytes, mapM_asBit_toNat]
  · exact getLsbD_getD_packBits bits (length_packBits bits ▸ hj) hi

/-! ### Elements that are no bits -/

theorem asBit_eq_none_iff {v : Int} : asBit v = none ↔ v ≠ 0 ∧ v ≠ 1 := by
  rw [asBit]
  split_ifs with hzero hone
  · simp [hzero]
  · simp [hone]
  · simp [hzero, hone]

/-- One element that is no bit spoils the sequence, and nothing else does (R90). -/
theorem mapM_asBit_eq_none_iff {bits : List Int} : bits.mapM asBit = none ↔ ∃ v ∈ bits, asBit v = none := by
  induction bits with
  | nil => simp
  | cons v bits ih =>
    rw [List.exists_mem_cons_iff, ← ih, List.mapM_cons]
    cases asBit v with
    | none => simp
    | some b => cases bits.mapM asBit <;> simp

theorem bitsToBytes_refused_iff {bits : List Int} :
    (∃ r, bitsToBytes bits = .error r) ↔ bits.mapM asBit = none := by
  rw [bitsToBytes]
  cases bits.mapM asBit <;> simp

/-- Settles O56: the acceptance stops at the first element that is no bit. -/
theorem packingRefusesOnlyNonBits : Obligations.PackingRefusesOnlyNonBits := by
  intro bits
  simp only [bitsToBytes_refused_iff, mapM_asBit_eq_none_iff, asBit_eq_none_iff]

/-! ### The laws -/

section
variable {a : List Bool} {n : Nat} (hn : a.length = 8 * n) (b : List Bool)
include hn

/-- A byte before the end of the first part is a byte of it. -/
theorem packByte_append_of_lt {j : Nat} (hj : j < n) : packByte (a ++ b) j = packByte a j :=
  packByte_congr fun i _ => List.getD_append _ _ _ _ (by omega)

/-- A byte after the `n` bytes of the first part is a byte of the second. -/
theorem packByte_append_add (j : Nat) : packByte (a ++ b) (n + j) = packByte b j := by
  refine packByte_congr fun i _ => ?_
  have hindex : 8 * (n + j) + i = a.length + (8 * j + i) := by omega
  rw [hindex, List.getD_append_right _ _ _ _ (Nat.le_add_right _ _), Nat.add_sub_cancel_left]

end

/-- After whole groups, the bytes of the rest follow the bytes of the groups (R91). -/
theorem packBits_append {a : List Bool} (ha : a.length % 8 = 0) (b : List Bool) :
    packBits (a ++ b) = packBits a ++ packBits b := by
  obtain ⟨n, hn⟩ := Nat.dvd_of_mod_eq_zero ha
  have hgroups : (a.length + 7) / 8 = n := by omega
  have hcount : ((a ++ b).length + 7) / 8 = n + (b.length + 7) / 8 := by
    rw [List.length_append]
    omega
  rw [packBits_eq_map, packBits_eq_map a, packBits_eq_map b, hcount, hgroups, List.range_add, List.map_append,
    List.map_map]
  congr 1
  · exact List.map_congr_left fun j hj => packByte_append_of_lt hn b (List.mem_range.1 hj)
  · exact List.map_congr_left fun j _ => packByte_append_add hn b j

/-- A 0 appended to an unfinished group is one of the zeros of its padding (R91). -/
theorem packBits_append_false {bits : List Bool} (h : bits.length % 8 ≠ 0) :
    packBits (bits ++ [false]) = packBits bits := by
  have hcount : ((bits ++ [false]).length + 7) / 8 = (bits.length + 7) / 8 := by
    rw [List.length_append, List.length_singleton]
    omega
  rw [packBits_eq_map, packBits_eq_map, hcount]
  exact List.map_congr_left fun j _ => packByte_congr fun i _ => getD_append_replicate_false bits 1 _

/-- Settles O57: bit `k` is bit `k % 8` of group `k / 8`; the other laws stand above. -/
theorem packingLaws : Obligations.PackingLaws := by
  refine ⟨length_packBits, fun a b ha => packBits_append ha b, fun bits h => (packBits_append_false h).symm,
    fun bits k hk => ?_⟩
  rw [getLsbD_getD_packBits bits (by omega) (Nat.mod_lt k (by decide)), Nat.div_add_mod]

end Sys2Proof.Machine
end

section
/-! The exceptions' statements (60_exceptions.md): the codes of the status (R95), when a command answers with an error
(R93 to R96) and what that leaves (R98 to R100), and when a command is refused (R102). -/

namespace Sys2Proof.Machine

/-! ### The status -/

@[simp] theorem Response.status_ok (v : Value) : (Response.ok v).status = 0b00#2 := rfl
@[simp] theorem Response.status_error (k : ErrorKind) : (Response.error k).status = k.code := rfl

theorem ErrorKind.code_ne_three (k : ErrorKind) : k.code ≠ 0b11#2 := by
  cases k <;> decide

theorem Response.status_ne_three (r : Response) : r.status ≠ 0b11#2 := by
  cases r with
  | ok v => simp
  | error k => simpa using k.code_ne_three

/-- Settles O40: the status of a value is 0, that of an error the code of its kind. -/
theorem responseStatusCodes : Obligations.ResponseStatusCodes := by
  intro r
  exact ⟨fun v h => h ▸ Response.status_ok v, fun h => h ▸ rfl, fun h => h ▸ rfl, r.status_ne_three⟩

/-! ### Errors -/

theorem seedFits_eq_false_iff {n : Nat} {v : Int} : seedFits n v = false ↔ 2 ^ n - 1 < v := by
  rw [Bool.eq_false_iff, Ne, seedFits_iff, not_le]

/-- A command that answers with an error was a `SET_TAPS` or a `RESET.S` of a GLFSR whose operand does not pass its
check, and it has written its response only (R98). -/
theorem exec_error_cases {i : Instr} {s s' : State} {k : ErrorKind} (h : exec i s = .next s')
    (hk : s'.rsp = some (.error k)) :
    s' = { s with rsp := some (.error k) } ∧ ∃ g, s.gen = some (.general g) ∧
      ((k = .invalidTaps ∧ ∃ L, i = .setTaps L ∧ tapsValid g.size L = false) ∨
       (k = .invalidSeed ∧ ∃ v, i = .resetS v ∧ seedFits g.size v = false)) := by
  obtain ⟨f, -, -, rfl⟩ | ⟨f, -, -, rfl⟩ | ⟨g, -, -, rfl⟩ | ⟨g, -, -, rfl⟩ | ⟨g, L, -, -, -, rfl⟩ |
    ⟨g, L, hg, hi, hL, rfl⟩ | ⟨g, v, -, -, -, -, rfl⟩ | ⟨g, v, hg, hi, -, hv, rfl⟩ | ⟨g, -, -, rfl⟩ := exec_cases h
  · cases hk
  · cases hk
  · cases hk
  · cases hk
  · cases hk
  · cases hk
    exact ⟨rfl, g, hg, .inl ⟨rfl, L, hi, hL⟩⟩
  · cases hk
  · cases hk
    exact ⟨rfl, g, hg, .inr ⟨rfl, v, hi, hv⟩⟩
  · cases hk

/-- Settles O18: the two checks, and that an operand which fails one raises the error. -/
theorem errorsRaisedExactlyWhen : Obligations.ErrorsRaisedExactlyWhen := by
  intro i s k
  simp only [← tapsValid_eq_false_iff, ← seedFits_eq_false_iff]
  constructor
  · rintro ⟨s', h, hk⟩
    exact (exec_error_cases h hk).2
  · rintro ⟨g, hg, ⟨rfl, L, rfl, hL⟩ | ⟨rfl, v, rfl, hv⟩⟩
    · exact ⟨_, exec_setTaps_of_invalid hg (Bool.eq_false_iff.1 hL), rfl⟩
    · exact ⟨_, exec_resetS_of_too_large hg (seedFits_eq_false_iff.1 hv), rfl⟩

/-- Settles O19: only the response was written, and no command reads it (`exec_setRsp`). -/
theorem errorsLeaveNothingBehind : Obligations.ErrorsLeaveNothingBehind := by
  intro i s s' k h hk
  obtain ⟨rfl, -⟩ := exec_error_cases h hk
  exact ⟨rfl, rfl, fun j => exec_setRsp j s _, (exec_setRsp i s _).trans h⟩

/-! ### Refusals -/

theorem Responds.not_refused {a : Result} (h : Responds a) : ¬ ∃ r, a = .refused r := by
  obtain ⟨s', r, rfl, -⟩ := h
  rintro ⟨r', hr'⟩
  cases hr'

/-- An FLFSR4 refuses the commands it does not have (R53), and answers the two others. -/
theorem exec_fixed_refused_iff {i : Instr} {s : State} {f : Flfsr4} (h : s.gen = some (.fixed f)) :
    (∃ r, exec i s = .refused r) ↔ i ≠ .state ∧ i ≠ .advance := by
  refine ⟨fun hr => not_or.1 fun hi => (exec_fixed_responds h hi).not_refused hr, fun ⟨hstate, hadvance⟩ => ?_⟩
  cases i with
  | state => exact absurd rfl hstate
  | advance => exact absurd rfl hadvance
  | setTaps L => exact ⟨_, exec_setTaps_fixed h L⟩
  | resetS v => exact ⟨_, exec_resetS_fixed h v⟩
  | resetN => exact ⟨_, exec_resetN_fixed h⟩

/-- A GLFSR refuses a negative seed (R72), and answers everything else. -/
theorem exec_general_refused_iff {i : Instr} {s : State} {g : Glfsr} (h : s.gen = some (.general g)) :
    (∃ r, exec i s = .refused r) ↔ ∃ v, i = .resetS v ∧ v < 0 := by
  constructor
  · intro hr
    by_contra hseed
    exact (exec_general_responds h fun v hi => not_lt.1 fun hv => hseed ⟨v, hi, hv⟩).not_refused hr
  · rintro ⟨v, rfl, hv⟩
    exact ⟨_, exec_resetS_of_negative h hv⟩

/-- Settles O20: no instance, an FLFSR4, a GLFSR. -/
theorem commandsRefusedExactlyWhen : Obligations.CommandsRefusedExactlyWhen := by
  intro i s
  obtain hnone | ⟨f, hf⟩ | ⟨g, hg⟩ := s.gen_cases
  · exact iff_of_true ⟨_, exec_noInstance hnone i⟩ (.inl hnone)
  · rw [exec_fixed_refused_iff hf]
    simp [hf]
  · rw [exec_general_refused_iff hg]
    simp [hg]

end Sys2Proof.Machine
end

section
/-! The hazards' statements (70_reset_and_hazards.md): taps that drain the register (R117), and a change of the taps
in mid-sequence (R114). -/

namespace Sys2Proof.Machine

/-! ### Taps that drain the register -/

/-- The empty list has the empty mask (R18). -/
theorem tapMask_nil (n : Nat) : tapMask n [] = 0 := by
  refine Nat.eq_of_testBit_eq fun p => ?_
  simp [testBit_tapMask, maskBit]

/-- A legal list of mask 0 never feeds back a 1: it has the mask of the empty list (R67). -/
theorem feedback_eq_false_of_tapMask_eq_zero {n : Nat} {L : List Int} (hL : ∀ t ∈ L, 0 ≤ t ∧ t < (n : Int))
    (hmask : tapMask n L = 0) (S : Nat) : feedback S L = false :=
  (feedback_eq_of_tapMask_eq hL (List.forall_mem_nil _) (hmask.trans (tapMask_nil n).symm) S).trans (feedback_nil S)

/-- A register that was never fed a 1 outputs its seed's bits and then zeros. -/
theorem outputAt_of_tapMask_eq_zero {n S : Nat} {L : List Int} (hn : 1 ≤ n) (hS : S < 2 ^ n)
    (hL : ∀ t ∈ L, 0 ≤ t ∧ t < (n : Int)) (hmask : tapMask n L = 0) (t : Nat) :
    outputAt n L S t = (decide (t < n) && S.testBit t) := by
  by_cases ht : t < n
  · rw [outputAt_of_lt L hn hS ht, decide_eq_true ht, Bool.true_and]
  · obtain ⟨u, rfl⟩ := Nat.exists_eq_add_of_le' (not_lt.1 ht)
    rw [outputAt_add_size L hn hS, feedback_eq_false_of_tapMask_eq_zero hL hmask, decide_eq_false ht, Bool.false_and]

/-- Settles O29: from time `n` on, the bits of the register are outputs after the seed's last one. -/
theorem emptyMaskDrainsTheRegister : Obligations.EmptyMaskDrainsTheRegister := by
  intro n S L hn hS hL hmask
  refine ⟨fun t ht => Nat.eq_of_testBit_eq fun i => ?_, outputAt_of_tapMask_eq_zero hn hS hL hmask⟩
  rw [Nat.zero_testBit]
  by_cases hi : i < n
  · have hlate : ¬ t + i < n := by omega
    rw [testBit_regAt_eq_outputAt L hn hS t hi, outputAt_of_tapMask_eq_zero hn hS hL hmask, decide_eq_false hlate,
      Bool.false_and]
  · exact Nat.testBit_lt_two_pow
      ((regAt_lt L hn hS t).trans_le (Nat.pow_le_pow_right Nat.two_pos (not_lt.1 hi)))

/-! ### Changing the taps in mid-sequence -/

/-- A run of advances collects one bit for each (R83). -/
theorem length_of_advances {k : Nat} {h h' : Session} {bs : List Bool} (hrun : advances k h = .ok (bs, h')) :
    bs.length = k := by
  induction k generalizing h bs with
  | zero =>
    cases hrun
    rfl
  | succ k ih =>
    obtain ⟨b, h1, cs, -, hcs, rfl⟩ := advances_succ_cases hrun
    rw [List.length_cons, ih hcs]

/-- Settles O42: the register is kept and its outputs leave in the order of R34 under the new list, whose first
feedback bit follows the register's own. -/
theorem newTapsShowAfterSizeOutputs : Obligations.NewTapsShowAfterSizeOutputs := by
  intro s g L hg ⟨hsize, hreg, _⟩ hL
  have hlegal : (Generator.general { g with taps := L }).Legal := ⟨hsize, hreg, hL⟩
  obtain ⟨bs, h, hseq, -, hown, hfed⟩ := outputsLeaveLeastSignificantFirst
    { s with gen := some (.general { g with taps := L }), rsp := some (.ok (.taps L)) } _ (g.size + 1) rfl hlegal
  refine ⟨_, bs, h, exec_setTaps_of_valid hg (tapsValid_iff_lt.2 hL), hseq,
    length_of_advances (advances_of_genSeq hseq), fun j hj => hown j (Nat.lt_succ_of_lt hj) hj, ?_⟩
  have hfirst : bs[0 + g.size]? = some (feedback g.reg L) := hfed 0 (by simp [Generator.size])
  rwa [Nat.zero_add, feedback_eq_parity_testBit fun t ht => (hL t ht).1] at hfirst

end Sys2Proof.Machine
end

section
/-! What stands on the response ports after each command (R51, R59, R95), reset and its legality (R107, R21, R22), the
step on one command and on none (R54, R60), and the table words (R47, R52). -/

namespace Sys2Proof.Machine

/-! ### The wires of the register -/

/-- The wires of a number are the column vector of the state it is (R19, R48). -/
theorem natToBits_eq_regBits (n S : Nat) : natToBits n S = regBits n S := by
  refine List.ext_getElem (by simp [regBits]) fun k hk _ => ?_
  rw [← List.getD_eq_getElem _ false hk, natToBits_getD n S k (by simpa using hk)]
  simp [regBits]

theorem getElem?_natToBits {n k : Nat} (S : Nat) (hk : k < n) : (natToBits n S)[k]? = some (S.testBit k) := by
  simp [natToBits_eq_regBits, regBits, hk]

theorem digit_beq_one (b : Bool) : (digit b == '1') = b := by
  cases b <;> rfl

/-- Read from the right, a state string is the register's wires (R33, D18). -/
theorem map_reverse_stateString (n S : Nat) : (stateString n S).reverse.map (· == '1') = natToBits n S := by
  rw [natToBits_eq_regBits]
  refine List.ext_getElem (by simp [regBits]) fun k hk _ => ?_
  have hk : k < n := by simpa using hk
  simp [stateString, regBits, digit_beq_one, show n - 1 - (n - 1 - k) = k by omega]

/-! ### The response ports -/

theorem ErrorKind.code_ne_zero (k : ErrorKind) : k.code ≠ 0b00#2 := by
  cases k <;> decide

theorem Response.rspErr_ports (size : Nat) (w : Widths) (r : Response) : (r.ports size w).rspErr = r.status := by
  cases r with
  | ok v => cases v <;> rfl
  | error k => rfl

/-- The state string and the register it spells stand on `rsp_state` alike (R51, D18). -/
theorem Response.ports_stateString (size : Nat) (w : Widths) (S : Nat) :
    (Response.ok (.str (stateString size S))).ports size w = (Response.ok (.num S)).ports size w := by
  simp only [Response.ports, map_reverse_stateString, Response.status_ok]

/-! ### The value that a command answers -/

section
variable {s s' : State} {x x' : Generator} {v : Value}

theorem value_of_exec_advance (hx : s.gen = some x) (h : exec .advance s = .next s')
    (hv : s'.rsp = some (.ok v)) : v = .bit (x.value.testBit 0) := by
  rw [exec_advance hx] at h
  cases h
  cases hv
  rfl

theorem value_of_exec_setTaps {L : List Int} (hx : s.gen = some x) (h : exec (.setTaps L) s = .next s')
    (hv : s'.rsp = some (.ok v)) : v = .taps L := by
  cases x with
  | fixed f => simp [exec_setTaps_fixed hx] at h
  | general g =>
    by_cases hL : tapsValid g.size L = true
    · rw [exec_setTaps_of_valid hx hL] at h
      cases h
      cases hv
      rfl
    · rw [exec_setTaps_of_invalid hx hL] at h
      cases h
      cases hv

/-- `STATE` spells the register as it is after the command; `RESET.N` and `RESET.S` answer it as a number. -/
theorem value_of_exec_register {i : Instr} (hi : i = .state ∨ i = .resetN ∨ ∃ seed, i = .resetS seed)
    (hx : s.gen = some x) (h : exec i s = .next s') (hv : s'.rsp = some (.ok v)) (hx' : s'.gen = some x') :
    v = .str (stateString x.size x'.value) ∨ v = .num x'.value := by
  obtain rfl | rfl | ⟨seed, rfl⟩ := hi
  · rw [exec_state hx] at h
    cases h
    cases hv
    cases hx.symm.trans hx'
    exact .inl rfl
  · cases x with
    | fixed f => simp [exec_resetN_fixed hx] at h
    | general g =>
      rw [exec_resetN_general hx] at h
      cases h
      cases hv
      cases hx.symm.trans hx'
      exact .inr rfl
  · cases x with
    | fixed f => simp [exec_resetS_fixed hx] at h
    | general g =>
      obtain hneg | hnonneg := lt_or_ge seed 0
      · simp [exec_resetS_of_negative hx hneg] at h
      cases hfits : seedFits g.size seed with
      | true =>
        rw [exec_resetS_of_fits hx hnonneg hfits] at h
        cases h
        cases hv
        cases hx'
        exact .inr rfl
      | false =>
        rw [exec_resetS_of_too_large hx (seedFits_eq_false_iff.1 hfits)] at h
        cases h
        cases hv

end

/-- Settles O41: status 0 is that of a value, which is the command's own (`value_of_exec_advance`,
`value_of_exec_setTaps`, `value_of_exec_register`); any other is that of an error, which has no value. -/
theorem responsePortsCarryTheValue : Obligations.ResponsePortsCarryTheValue := by
  intro w i s s' x x' r hx _ h hr hx'
  refine ⟨r.rspErr_ports _ _, fun hok => ?_, fun herr => ?_⟩
  · cases r with
    | error k => exact absurd hok k.code_ne_zero
    | ok v =>
      refine ⟨?_, ?_, fun hi => ⟨natToBits x.size x'.value, ?_, natToBits_length _ _, fun k => getElem?_natToBits _⟩⟩
      · rintro rfl
        rw [value_of_exec_advance hx h hr]
        rfl
      · rintro L rfl
        rw [value_of_exec_setTaps hx h hr]
        rfl
      · obtain rfl | rfl := value_of_exec_register hi hx h hr hx'
        · exact Response.ports_stateString _ _ _
        · rfl
  · cases r with
    | ok v => exact absurd rfl herr
    | error k => rfl

/-! ### Reset -/

/-- Settles O1: the effective operands pass the checks of R69. -/
theorem resetIsDefaultGeneralConstruction : Obligations.ResetIsDefaultGeneralConstruction :=
  ⟨by decide, rfl, rfl, rfl⟩

/-- Settles O43: `State.reset` holds what a construction made, `State.blank` holds nothing. -/
theorem resetIsLegal : Obligations.ResetIsLegal :=
  ⟨(State.legal_iff rfl).2 (legal_of_constructWith resetIsDefaultGeneralConstruction.1), State.legal_of_gen_none rfl⟩

/-! ### The step on one command and on none -/

/-- Settles O31. -/
theorem stepRunsTheDecodedCommand : Obligations.StepRunsTheDecodedCommand :=
  fun _ _ _ _ hs hp => step_of_script_command hs hp

/-- Settles O32: both are an idle step, the second after its event is taken off the script. -/
theorem noCommandLeavesTheInstance : Obligations.NoCommandLeavesTheInstance :=
  fun _ _ => ⟨fun hs => step_of_script_nil hs, fun hs => step_of_script_cons hs⟩

/-! ### The table words -/

/-- Settles O38, word by word. -/
theorem tableWordsDecode : Obligations.TableWordsDecode :=
  ⟨rfl, rfl, rfl, rfl, rfl, by decide⟩

end Sys2Proof.Machine
end
